-- ==== Sys2Proof/Word.lean ====
section
/-! DEFINITION. The widths of the machine's values (00_scope.md R9, R12): a nibble, a byte, a 12-bit address field and
a 16-bit word. Every value is unsigned (R13). -/

namespace Sys2Proof

/-- A 4-bit slice of an opcode (R12): a register index or a row count. -/
abbrev Nibble := BitVec 4

/-- A byte of memory, a general register, a timer or an immediate `kk` (R9). -/
abbrev Byte := BitVec 8

/-- The address field `nnn` of an opcode (R61). -/
abbrev Addr := BitVec 12

/-- An opcode, the index register, the program counter or a stack entry (R9). -/
abbrev Word := BitVec 16

end Sys2Proof
end

