-- ==== Sys2Proof/Config.lean ====
section
/-! DEFINITION. The fixed sizes of the machine (00_scope.md R9) and the parameters its source leaves open (R10). -/

namespace Sys2Proof

/-- The two admitted values of the parameter `SHL_SEL` (30_encoding.md R67, decision D2), the trailing nibble that
selects SHL. Which one a machine has is the field `shlSel` of the state, so that every statement holds for both
(log 3). -/
inductive ShlSel where
  | eight  -- 0x8, the document's literal and the suggested default
  | e      -- 0xE
  deriving DecidableEq, Repr

namespace Config

/-- MEM_SIZE: 4096 bytes at 0x000 to 0xFFF (R9). -/
def memSize : Nat := 4096

/-- PROG_BASE: where LOAD puts a program, and the reset value of PC (R9). -/
def progBase : Nat := 0x200

/-- ROM_MAX: the largest image LOAD accepts, 4096 - 512 bytes (R9). -/
def romMax : Nat := 3584

/-- STACK_DEPTH: the call stack's capacity (R9). -/
def stackDepth : Nat := 16

/-- GLYPH_SIZE: bytes per font glyph (R9). -/
def glyphSize : Nat := 5

/-- The open parameter `FONT_BASE` (R10, decision D4): a constant the source never gives, of which only
`FONT_BASE + 80 <= 0x200` is known, which is what the type `Fin 433` says. It has no body: nothing can be proved of
its value beyond that bound (log 4, safe). -/
opaque fontBase : Fin 433

/-- The open parameter `RandomSource` (42_load_alu.md R115, decision D15): the byte the injected supplier hands over
at its `k`-th draw. It has no body, so a byte drawn is any of the 256, under no law (log 5, safe). -/
opaque randomByte : Nat → Byte

end Config

end Sys2Proof
end

