-- ==== Sys2Proof/Syntax.lean ====
section
/-! DEFINITION. The instructions: one constructor per row of spec/opcode_table.json (30_encoding.md R66), in the
table's order, each with the fields its pattern leaves free (R61, R62). -/

namespace Sys2Proof

/-- The 34 instructions. A register field is a nibble, so an index out of range cannot occur (10_state.md R24). The
`y` of SHR and SHL is a field of the pattern that the instruction ignores (30_encoding.md R65). -/
inductive Instr where
  | cls                            -- 00E0
  | ret                            -- 00EE
  | jp (nnn : Addr)                -- 1nnn
  | call (nnn : Addr)              -- 2nnn
  | seVxKk (x : Nibble) (kk : Byte)    -- 3xkk
  | sneVxKk (x : Nibble) (kk : Byte)   -- 4xkk
  | seVxVy (x y : Nibble)          -- 5xy0
  | sneVxVy (x y : Nibble)         -- 9xy0
  | ldVxKk (x : Nibble) (kk : Byte)    -- 6xkk
  | addVxKk (x : Nibble) (kk : Byte)   -- 7xkk
  | ldVxVy (x y : Nibble)          -- 8xy0
  | orVxVy (x y : Nibble)          -- 8xy1
  | andVxVy (x y : Nibble)         -- 8xy2
  | xorVxVy (x y : Nibble)         -- 8xy3
  | addVxVy (x y : Nibble)         -- 8xy4
  | subVxVy (x y : Nibble)         -- 8xy5
  | shrVx (x y : Nibble)           -- 8xy6
  | subnVxVy (x y : Nibble)        -- 8xy7
  | shlVx (x y : Nibble)           -- 8xy8 or 8xyE
  | ldINnn (nnn : Addr)            -- Annn
  | jpV0Nnn (nnn : Addr)           -- Bnnn
  | rndVxKk (x : Nibble) (kk : Byte)   -- Cxkk
  | drwVxVyN (x y n : Nibble)      -- Dxyn
  | skpVx (x : Nibble)             -- Ex9E
  | sknpVx (x : Nibble)            -- ExA1
  | ldVxDt (x : Nibble)            -- Fx07
  | ldVxK (x : Nibble)             -- Fx0A
  | ldDtVx (x : Nibble)            -- Fx15
  | ldStVx (x : Nibble)            -- Fx18
  | addIVx (x : Nibble)            -- Fx1E
  | ldFVx (x : Nibble)             -- Fx29
  | ldBVx (x : Nibble)             -- Fx33
  | ldMemVx (x : Nibble)           -- Fx55
  | ldVxMem (x : Nibble)           -- Fx65
  deriving DecidableEq, Repr

end Sys2Proof
end

