-- ==== Sys2Proof/WellFormed.lean ====
section
/-! DEFINITION. What a well-formed instruction is. The fields of `Instr` are bit vectors of the widths the patterns
give (30_encoding.md R61), so every term of `Instr` has its fields in range (10_state.md R24). What can be ill-formed
is a 16-bit WORD: one that matches no row of the opcode map (R64, R68). -/

namespace Sys2Proof

/-- One row of the opcode map: the bits the pattern fixes, and their values (30_encoding.md R66). -/
structure Row where
  mask : Word
  pattern : Word
  deriving DecidableEq, Repr

/-- A word matches a row when its fixed bits have the row's values: `op & mask == match` (30_encoding.md R64). -/
def Row.matches (r : Row) (op : Word) : Bool := op &&& r.mask == r.pattern

/-- The pattern of the SHL row: 0x8008, or 0x800E with `SHL_SEL` = 0xE (30_encoding.md R67). -/
def ShlSel.pattern : ShlSel → Word
  | .eight => 0x8008
  | .e => 0x800E

/-- Rows 1 to 10 of the opcode map: the fixed, jump, skip and immediate forms (30_encoding.md R66). -/
def rowsImmediate : List Row :=
  [⟨0xFFFF, 0x00E0⟩, ⟨0xFFFF, 0x00EE⟩, ⟨0xF000, 0x1000⟩, ⟨0xF000, 0x2000⟩, ⟨0xF000, 0x3000⟩, ⟨0xF000, 0x4000⟩,
   ⟨0xF00F, 0x5000⟩, ⟨0xF00F, 0x9000⟩, ⟨0xF000, 0x6000⟩, ⟨0xF000, 0x7000⟩]

/-- Rows 11 to 19: the ALU group, whose last row depends on `SHL_SEL` (30_encoding.md R66, R67). -/
def rowsAlu (sel : ShlSel) : List Row :=
  [⟨0xF00F, 0x8000⟩, ⟨0xF00F, 0x8001⟩, ⟨0xF00F, 0x8002⟩, ⟨0xF00F, 0x8003⟩, ⟨0xF00F, 0x8004⟩, ⟨0xF00F, 0x8005⟩,
   ⟨0xF00F, 0x8006⟩, ⟨0xF00F, 0x8007⟩, ⟨0xF00F, sel.pattern⟩]

/-- Rows 20 to 34: index, indexed jump, random, draw, keys, timers and memory (30_encoding.md R66). -/
def rowsRest : List Row :=
  [⟨0xF000, 0xA000⟩, ⟨0xF000, 0xB000⟩, ⟨0xF000, 0xC000⟩, ⟨0xF000, 0xD000⟩, ⟨0xF0FF, 0xE09E⟩, ⟨0xF0FF, 0xE0A1⟩,
   ⟨0xF0FF, 0xF007⟩, ⟨0xF0FF, 0xF00A⟩, ⟨0xF0FF, 0xF015⟩, ⟨0xF0FF, 0xF018⟩, ⟨0xF0FF, 0xF01E⟩, ⟨0xF0FF, 0xF029⟩,
   ⟨0xF0FF, 0xF033⟩, ⟨0xF0FF, 0xF055⟩, ⟨0xF0FF, 0xF065⟩]

/-- The opcode map of 30_encoding.md R66, 34 rows in the source's order. -/
def opcodeMap (sel : ShlSel) : List Row := rowsImmediate ++ rowsAlu sel ++ rowsRest

/-- A word is a well-formed instruction word when it matches some row of the opcode map (30_encoding.md R64). It is
written from the table's masks, apart from the decoder, so that the two can be held against each other. -/
def wellFormedWord (sel : ShlSel) (op : Word) : Bool := (opcodeMap sel).any fun r => r.matches op

end Sys2Proof
end

