-- ==== Sys2Proof/Decode.lean ====
section
/-! DEFINITION. The decoder, total on any bytes (30_encoding.md R60 to R69), and after it the encoder, written from
the same patterns. -/

namespace Sys2Proof

/-- The leading nibble `n3 = op[15:12]` (30_encoding.md R61). -/
def fieldN3 (op : Word) : Nibble := op.extractLsb' 12 4

/-- `x = op[11:8]` (30_encoding.md R61). -/
def fieldX (op : Word) : Nibble := op.extractLsb' 8 4

/-- `y = op[7:4]` (30_encoding.md R61). -/
def fieldY (op : Word) : Nibble := op.extractLsb' 4 4

/-- The trailing nibble `n = op[3:0]` (30_encoding.md R61). -/
def fieldN (op : Word) : Nibble := op.extractLsb' 0 4

/-- The immediate byte `kk = op[7:0]` (30_encoding.md R61). -/
def fieldKk (op : Word) : Byte := op.extractLsb' 0 8

/-- The address `nnn = op[11:0]` (30_encoding.md R61). -/
def fieldNnn (op : Word) : Addr := op.extractLsb' 0 12

/-- The trailing nibble that selects SHL (30_encoding.md R67). -/
def ShlSel.nibble : ShlSel → Nibble
  | .eight => 0x8
  | .e => 0xE

/-- The ALU group `8xyN`, by its trailing nibble (30_encoding.md R66 rows 11 to 19). -/
def decodeAlu (sel : ShlSel) (x y n : Nibble) : Option Instr :=
  if n = 0x0 then some (.ldVxVy x y)
  else if n = 0x1 then some (.orVxVy x y)
  else if n = 0x2 then some (.andVxVy x y)
  else if n = 0x3 then some (.xorVxVy x y)
  else if n = 0x4 then some (.addVxVy x y)
  else if n = 0x5 then some (.subVxVy x y)
  else if n = 0x6 then some (.shrVx x y)
  else if n = 0x7 then some (.subnVxVy x y)
  else if n = sel.nibble then some (.shlVx x y)
  else none

/-- The key skips `Exkk`, by their low byte (30_encoding.md R66 rows 24 and 25). -/
def decodeKey (x : Nibble) (kk : Byte) : Option Instr :=
  if kk = 0x9E then some (.skpVx x)
  else if kk = 0xA1 then some (.sknpVx x)
  else none

/-- The `Fxkk` group, by its low byte (30_encoding.md R66 rows 26 to 34). -/
def decodeMisc (x : Nibble) (kk : Byte) : Option Instr :=
  if kk = 0x07 then some (.ldVxDt x)
  else if kk = 0x0A then some (.ldVxK x)
  else if kk = 0x15 then some (.ldDtVx x)
  else if kk = 0x18 then some (.ldStVx x)
  else if kk = 0x1E then some (.addIVx x)
  else if kk = 0x29 then some (.ldFVx x)
  else if kk = 0x33 then some (.ldBVx x)
  else if kk = 0x55 then some (.ldMemVx x)
  else if kk = 0x65 then some (.ldVxMem x)
  else none

/-- The two fixed words with leading nibble 0; every other `0nnn` is unrecognised, `0xy2` among them
(30_encoding.md R68, R69). -/
def decodeFixed (op : Word) : Option Instr :=
  if op = 0x00E0 then some .cls
  else if op = 0x00EE then some .ret
  else none

/-- The instruction a 16-bit word stands for, `none` for an unrecognised word (30_encoding.md R64, R68). It depends on
the word and on the machine's constant `SHL_SEL` alone (40_step_cycle.md R83, R84). -/
def decodeWord (sel : ShlSel) (op : Word) : Option Instr :=
  let x := fieldX op
  let y := fieldY op
  let n := fieldN op
  let kk := fieldKk op
  let nnn := fieldNnn op
  match (fieldN3 op).toNat with
  | 0x0 => decodeFixed op
  | 0x1 => some (.jp nnn)
  | 0x2 => some (.call nnn)
  | 0x3 => some (.seVxKk x kk)
  | 0x4 => some (.sneVxKk x kk)
  | 0x5 => if n = 0x0 then some (.seVxVy x y) else none
  | 0x6 => some (.ldVxKk x kk)
  | 0x7 => some (.addVxKk x kk)
  | 0x8 => decodeAlu sel x y n
  | 0x9 => if n = 0x0 then some (.sneVxVy x y) else none
  | 0xA => some (.ldINnn nnn)
  | 0xB => some (.jpV0Nnn nnn)
  | 0xC => some (.rndVxKk x kk)
  | 0xD => some (.drwVxVyN x y n)
  | 0xE => decodeKey x kk
  | _ => decodeMisc x kk

/-- What the decoder says of a byte sequence: an instruction and the bytes after it, an unrecognised word and the
bytes after it, or fewer than two bytes. -/
inductive Decoded where
  | instr (i : Instr) (rest : List Byte)
  | unrecognised (op : Word) (rest : List Byte)
  | truncated
  deriving DecidableEq, Repr

/-- The word two bytes make: the byte at the lower address is the high byte (20_memory.md R42, R46). -/
def wordOfBytes (hi lo : Byte) : Word := hi ++ lo

/-- The decoder on bytes, as they stand in memory: every instruction is one word of two bytes, high byte first
(30_encoding.md R60). -/
def decodeBytes (sel : ShlSel) : List Byte → Decoded
  | hi :: lo :: rest =>
    match decodeWord sel (wordOfBytes hi lo) with
    | some i => .instr i rest
    | none => .unrecognised (wordOfBytes hi lo) rest
  | _ => .truncated

/-- A word of format NNN: leading nibble and address (30_encoding.md R62). -/
def joinNnn (n3 : Nibble) (nnn : Addr) : Word := n3 ++ nnn

/-- A word of format XKK or X: leading nibble, register and low byte (30_encoding.md R62). -/
def joinXkk (n3 x : Nibble) (kk : Byte) : Word := n3 ++ x ++ kk

/-- A word of format XY or XYN: four nibbles (30_encoding.md R62). -/
def joinXyn (n3 x y n : Nibble) : Word := n3 ++ x ++ y ++ n

/-- The encoder: the word of an instruction, from the patterns of 30_encoding.md R66 and formats of R62. -/
def encodeWord (sel : ShlSel) : Instr → Word
  | .cls => 0x00E0
  | .ret => 0x00EE
  | .jp nnn => joinNnn 0x1#4 nnn
  | .call nnn => joinNnn 0x2#4 nnn
  | .seVxKk x kk => joinXkk 0x3#4 x kk
  | .sneVxKk x kk => joinXkk 0x4#4 x kk
  | .seVxVy x y => joinXyn 0x5#4 x y 0x0#4
  | .sneVxVy x y => joinXyn 0x9#4 x y 0x0#4
  | .ldVxKk x kk => joinXkk 0x6#4 x kk
  | .addVxKk x kk => joinXkk 0x7#4 x kk
  | .ldVxVy x y => joinXyn 0x8#4 x y 0x0#4
  | .orVxVy x y => joinXyn 0x8#4 x y 0x1#4
  | .andVxVy x y => joinXyn 0x8#4 x y 0x2#4
  | .xorVxVy x y => joinXyn 0x8#4 x y 0x3#4
  | .addVxVy x y => joinXyn 0x8#4 x y 0x4#4
  | .subVxVy x y => joinXyn 0x8#4 x y 0x5#4
  | .shrVx x y => joinXyn 0x8#4 x y 0x6#4
  | .subnVxVy x y => joinXyn 0x8#4 x y 0x7#4
  | .shlVx x y => joinXyn 0x8#4 x y sel.nibble
  | .ldINnn nnn => joinNnn 0xA#4 nnn
  | .jpV0Nnn nnn => joinNnn 0xB#4 nnn
  | .rndVxKk x kk => joinXkk 0xC#4 x kk
  | .drwVxVyN x y n => joinXyn 0xD#4 x y n
  | .skpVx x => joinXkk 0xE#4 x 0x9E#8
  | .sknpVx x => joinXkk 0xE#4 x 0xA1#8
  | .ldVxDt x => joinXkk 0xF#4 x 0x07#8
  | .ldVxK x => joinXkk 0xF#4 x 0x0A#8
  | .ldDtVx x => joinXkk 0xF#4 x 0x15#8
  | .ldStVx x => joinXkk 0xF#4 x 0x18#8
  | .addIVx x => joinXkk 0xF#4 x 0x1E#8
  | .ldFVx x => joinXkk 0xF#4 x 0x29#8
  | .ldBVx x => joinXkk 0xF#4 x 0x33#8
  | .ldMemVx x => joinXkk 0xF#4 x 0x55#8
  | .ldVxMem x => joinXkk 0xF#4 x 0x65#8

/-- The high byte of a word, the one at the lower address (20_memory.md R46). -/
def highByte (op : Word) : Byte := op.extractLsb' 8 8

/-- The low byte of a word, the one at the higher address (20_memory.md R46). -/
def lowByte (op : Word) : Byte := op.extractLsb' 0 8

/-- An instruction's bytes in memory order: high byte first (30_encoding.md R60). -/
def encodeBytes (sel : ShlSel) (i : Instr) : List Byte :=
  [highByte (encodeWord sel i), lowByte (encodeWord sel i)]

/-- The word whose bits the opcode table numbers: the low `nbits` of `w`, the bits above them zero. -/
def tableWord (nbits w : Nat) : Word := BitVec.ofNat 16 (w % 2 ^ nbits)

/-- The instruction the decoder reads from a word of the opcode table, laid out in bytes as memory holds it. The table
gives SHL its document's literal 0x8, so it is read with that `SHL_SEL` (30_encoding.md R67), which is also the one
`State.reset` has. -/
def decodeTableWord (nbits w : Nat) : Option Instr :=
  match decodeBytes .eight [highByte (tableWord nbits w), lowByte (tableWord nbits w)] with
  | .instr i _ => some i
  | .unrecognised _ _ => none
  | .truncated => none

end Sys2Proof
end

