-- ==== Sys2Proof/Machine/State.lean ====
section
/-! DEFINITION. The state block of the machine (10_state.md R20 to R39), its value after RESET (R21,
70_reset_and_hazards.md R190), and the ways a step can stop. -/

namespace Sys2Proof.Machine

/-- `MEM` as plain data: (address, byte) cells, addresses strictly rising, no cell holding 0x00, which is what an
unlisted address reads as: the reset contents (10_state.md R22). -/
abbrev Memory := List Host.Cell

/-- `FB`: 32 row words of 64 bits, row 0 at the top; column `x` is bit `63 - x` of its row word (10_state.md R35). -/
abbrev Framebuffer := Vector (BitVec 64) 32

/-- The values of the `HALT` latch: running, or the cause of the fatal condition that stopped the machine
(10_state.md R36, 60_exceptions.md R171). -/
inductive Halt where
  | running
  | stackOverflow
  | stackUnderflow
  | hostKeyIndex
  | memRange
  | fetchRange
  | keyIndex
  deriving DecidableEq, Repr

/-- A fatal condition with the information its `raise` carries (60_exceptions.md R171). The information goes to the
host with the transaction's result and is stored nowhere. -/
inductive Fatal where
  | stackOverflow                 -- CALL with SP = 16 (R174)
  | stackUnderflow                -- RET with SP = 0 (R175)
  | hostKeyIndex (index : Nat)    -- SET_KEY with index > 15 (R179)
  | memRange (addr : Nat)         -- DRW, Fx33, Fx55, Fx65: the highest address touched is above 0xFFF (R176)
  | fetchRange (addr : Nat)       -- fetch with PC > 0x0FFE (R177)
  | keyIndex (k : Byte)           -- SKP, SKNP with V[x] > 15 (R178)
  deriving DecidableEq, Repr

/-- Why a step has no next state. -/
inductive Fault where
  /-- Raised by `step` alone, at a state whose `HALT` latch is set: "The halted machine has no enabled step; a model
  should treat it as stuck and never as a final state" (40_step_cycle.md R88). The latch's value is carried. Safe: the
  real machine's process is gone. Taking a fatal condition is no fault: it is a next state with `HALT` set (log 2). -/
  | halted (cause : Halt)
  deriving DecidableEq, Repr

/-- Why an instruction is refused. -/
inductive Refusal where
  /-- Raised by an arm of `exec` whose instruction has no meaning yet; no arm does, so it is never raised. Safe: the
  model stops where the hardware goes on. -/
  | notModelled (mnemonic : String)
  deriving DecidableEq, Repr

/-- The state block (10_state.md R20, R21), and two fields of the model's own: the machine's constant `SHL_SEL`
(log 3) and the count of bytes drawn from `RandomSource` (log 5). -/
structure State where
  /-- `MEM`, 4096 bytes (R22). -/
  mem : Memory
  /-- `V[0]` to `V[15]`; `V[15]` is VF (R23, R26). -/
  v : Vector Byte 16
  /-- `I`, the index register (R27). -/
  i : Word
  /-- `PC`, the address of the next instruction to fetch (R28). -/
  pc : Word
  /-- `STACK[0]` to `STACK[15]`, return addresses (R31). -/
  stack : Vector Word 16
  /-- `SP`, the number of return addresses held, 0 to 16 (R32). -/
  sp : Fin 17
  /-- `DT`, the delay timer (R33). -/
  dt : Byte
  /-- `ST`, the sound timer (R33). -/
  st : Byte
  /-- `KEY[0]` to `KEY[15]`, true = pressed (R34). -/
  key : Vector Bool 16
  /-- `FB`, the framebuffer (R35). -/
  fb : Framebuffer
  /-- `HALT` (R36). -/
  halt : Halt
  /-- The model's own: the machine's constant `SHL_SEL` (30_encoding.md R67, log 3). -/
  shlSel : ShlSel
  /-- The model's own: how many bytes `RandomSource` has supplied so far (42_load_alu.md R115, log 5). -/
  draws : Nat
  deriving DecidableEq, Repr

/-- The state after RESET: everything zero, `PC` at 0x200, running (70_reset_and_hazards.md R190). `shlSel` is the
spec's suggested default and `draws` starts at 0, both the model's choice (log 3, log 5). -/
def State.reset : State where
  mem := []
  v := Vector.replicate 16 0
  i := 0x0000
  pc := 0x0200
  stack := Vector.replicate 16 0
  sp := 0
  dt := 0x00
  st := 0x00
  key := Vector.replicate 16 false
  fb := Vector.replicate 32 0
  halt := .running
  shlSel := .eight
  draws := 0

end Sys2Proof.Machine
end

