-- ==== Sys2Proof/Machine/Ops.lean ====
section
/-! DEFINITION. The named operations every instruction is written in: memory (20_memory.md), registers, PC and stack
(10_state.md), taking a fatal condition (60_exceptions.md R172), the fetch (40_step_cycle.md R81) and the framebuffer
primitives (44_display.md R130 to R132). -/

namespace Sys2Proof.Machine

/-- What an instruction's meaning answers. -/
abbrev Result := Host.Outcome State Fault Refusal

/-! ### Memory -/

/-- The byte at an address; an unlisted address reads 0x00, the reset contents (20_memory.md R41, 10_state.md R22). -/
def Memory.read : Memory → Nat → Byte
  | [], _ => 0
  | c :: m, a => if c.1 = a then c.2 else Memory.read m a

/-- The memory without any cell at an address. -/
def Memory.erase : Memory → Nat → Memory
  | [], _ => []
  | c :: m, a => if c.1 = a then Memory.erase m a else c :: Memory.erase m a

/-- A cell put in its place among cells of rising addresses. -/
def Memory.insert (a : Nat) (b : Byte) : Memory → Memory
  | [] => [(a, b)]
  | c :: m => if a < c.1 then (a, b) :: c :: m else c :: Memory.insert a b m

/-- `MemWrite(addr, 1, v)` in range (20_memory.md R43). Writing 0x00 leaves no cell, so the form stays canonical. -/
def Memory.write (m : Memory) (a : Nat) (b : Byte) : Memory :=
  if b = 0 then Memory.erase m a else Memory.insert a b (Memory.erase m a)

/-- Bytes written one at a time at ascending addresses. -/
def Memory.writeBytes : Memory → Nat → List Byte → Memory
  | m, _, [] => m
  | m, a, b :: bs => Memory.writeBytes (Memory.write m a b) (a + 1) bs

/-- `n` bytes read at ascending addresses. -/
def Memory.readBytes (m : Memory) (a : Nat) : Nat → List Byte
  | 0 => []
  | n + 1 => Memory.read m a :: Memory.readBytes m (a + 1) n

/-- Addresses from `lo` on strictly rising and below 0x1000, and no cell holding 0x00. -/
def Memory.wfFrom : Nat → Memory → Bool
  | _, [] => true
  | lo, c :: m => lo ≤ c.1 && c.1 < Config.memSize && c.2 != 0 && Memory.wfFrom (c.1 + 1) m

/-- The canonical form of memory: addresses strictly rising, all in 0x000 to 0xFFF, no cell equal to what an unlisted
address reads as. -/
def Memory.wf (m : Memory) : Bool := Memory.wfFrom 0 m

/-- `MEM[a]`. -/
def State.readByte (s : State) (a : Nat) : Byte := Memory.read s.mem a

/-- The 16-bit value at `a`, the byte at the lower address in bits 15 to 8 (20_memory.md R42). -/
def State.readWord (s : State) (a : Nat) : Word := wordOfBytes (s.readByte a) (s.readByte (a + 1))

/-- Bytes stored at ascending addresses from `a`. -/
def State.storeBytes (s : State) (a : Nat) (bs : List Byte) : State :=
  { s with mem := Memory.writeBytes s.mem a bs }

/-! ### Registers -/

/-- `V[x]` (00_scope.md R14). -/
def State.reg (s : State) (x : Nibble) : Byte := s.v[x.toNat]'x.isLt

/-- `V[x] <- b` (00_scope.md R14). No register is hard-wired (10_state.md R23). -/
def State.setReg (s : State) (x : Nibble) (b : Byte) : State :=
  { s with v := s.v.set x.toNat b x.isLt }

/-- VF, register 15 (10_state.md R26). -/
def vf : Nibble := 0xF

/-- The values of `V[0]` to `V[x]`, in that order. -/
def State.regsTo (s : State) (x : Nibble) : List Byte := s.v.toList.take (x.toNat + 1)

/-- Registers written from a list, ascending from register `j`. -/
def loadRegs : Nat → List Byte → Vector Byte 16 → Vector Byte 16
  | _, [], v => v
  | j, b :: bs, v => loadRegs (j + 1) bs (v.setIfInBounds j b)

/-- `V[0] <- b0`, `V[1] <- b1` and so on for the bytes of a list. -/
def State.setRegsFrom0 (s : State) (bs : List Byte) : State := { s with v := loadRegs 0 bs s.v }

/-- `I <- w`. -/
def State.setI (s : State) (w : Word) : State := { s with i := w }

/-- `DT <- b`. -/
def State.setDt (s : State) (b : Byte) : State := { s with dt := b }

/-- `ST <- b`. -/
def State.setSt (s : State) (b : Byte) : State := { s with st := b }

/-- The framebuffer replaced as a whole. -/
def State.setFb (s : State) (fb : Framebuffer) : State := { s with fb := fb }

/-- `KEY[k]` (00_scope.md R14). -/
def State.keyDown (s : State) (k : Fin 16) : Bool := s.key[k.val]

/-! ### PC and stack -/

/-- `PC <- w`. -/
def State.setPc (s : State) (w : Word) : State := { s with pc := w }

/-- `PC <- PC + 2`: the advance phase (40_step_cycle.md R82), and the extra advance of a skip (41_control_flow.md
R90). -/
def State.advance (s : State) : State := s.setPc (s.pc + 2)

/-- The state with `PC` pushed: `STACK[SP] <- PC; SP <- SP + 1` (41_control_flow.md R93). A full stack has no slot and
stays as it is; CALL checks for that first. -/
def State.pushPc (s : State) : State :=
  if h : s.sp.val < 16 then
    { s with stack := s.stack.set s.sp.val s.pc h, sp := ⟨s.sp.val + 1, by omega⟩ }
  else s

/-- The state with `PC` popped: `SP <- SP - 1; PC <- STACK[SP]` (41_control_flow.md R91). The entry keeps its value
(10_state.md R31). An empty stack stays as it is; RET checks for that first. -/
def State.popPc (s : State) : State :=
  if h : 0 < s.sp.val then
    { s with sp := ⟨s.sp.val - 1, by omega⟩, pc := s.stack[s.sp.val - 1]'(by omega) }
  else s

/-! ### Taking a fatal condition -/

/-- The cause a fatal condition latches (60_exceptions.md R171). -/
def Fatal.cause : Fatal → Halt
  | .stackOverflow => .stackOverflow
  | .stackUnderflow => .stackUnderflow
  | .hostKeyIndex _ => .hostKeyIndex
  | .memRange _ => .memRange
  | .fetchRange _ => .fetchRange
  | .keyIndex _ => .keyIndex

/-- The number of a `HALT` value (60_exceptions.md R171). -/
def Halt.code : Halt → Nat
  | .running => 0
  | .stackOverflow => 1
  | .stackUnderflow => 2
  | .hostKeyIndex => 3
  | .memRange => 4
  | .fetchRange => 5
  | .keyIndex => 6

/-- `raise C(info)`: `HALT <- code(C)` and nothing else: no state is saved, `PC` is not redirected, there is no vector
and no handler (60_exceptions.md R172). There is no return from it (R184). -/
def raise (f : Fatal) (s : State) : State := { s with halt := f.cause }

/-- A transaction that raises when its check fails and otherwise has its effect; the check comes before any write
(60_exceptions.md R173). -/
def guarded (check : Option Fatal) (s effect : State) : Result :=
  match check with
  | some f => .next (raise f s)
  | none => .next effect

/-- The range check of an access to `n` bytes from `base`: the highest address it would touch, checked before anything
is read or written; an access to no byte makes no check (20_memory.md R44, 60_exceptions.md R176). -/
def rangeCheck (base n : Nat) : Option Fatal :=
  if n = 0 then none
  else if base + n - 1 > 0xFFF then some (.memRange (base + n - 1))
  else none

/-! ### Fetch -/

/-- The fetch is out of range unless both bytes of the opcode lie in memory (20_memory.md R45). -/
def fetchCheck (s : State) : Option Fatal :=
  if s.pc.toNat > 0xFFE then some (.fetchRange s.pc.toNat) else none

/-- The opcode at `PC`, from memory as it stands at the start of the step (40_step_cycle.md R81). -/
def State.fetchWord (s : State) : Word := s.readWord s.pc.toNat

/-- The word `op` placed where the next step fetches: at `PC` and `PC + 1`, high byte first. -/
def State.placeWord (s : State) (op : Word) : State := s.storeBytes s.pc.toNat [highByte op, lowByte op]

/-! ### Framebuffer -/

/-- Every pixel off (44_display.md R130). -/
def fbClear : Framebuffer := Vector.replicate 32 0

/-- `fb_get(x, y)`: the pixel in column `x` and row `y` (44_display.md R131). -/
def fbGet (fb : Framebuffer) (x : Fin 64) (y : Fin 32) : Bool := fb[y.val].getMsbD x.val

/-- The row word with only column `x` on (10_state.md R35). -/
def columnBit (x : Fin 64) : BitVec 64 := BitVec.twoPow 64 (63 - x.val)

/-- `fb_set(x, y, s)`: first the collision, from the previous value; then the XOR update (44_display.md R132). -/
def fbSet (fb : Framebuffer) (x : Fin 64) (y : Fin 32) (s : Bool) : Bool × Framebuffer :=
  (fbGet fb x y && s, if s then fb.set y.val (fb[y.val] ^^^ columnBit x) else fb)

/-- A column reduced modulo 64 (44_display.md R135). -/
def wrapX (n : Nat) : Fin 64 := Fin.ofNat 64 n

/-- A row reduced modulo 32 (44_display.md R135). -/
def wrapY (n : Nat) : Fin 32 := Fin.ofNat 32 n

end Sys2Proof.Machine
end

