-- ==== Sys2Proof/Machine/Flags.lean ====
section
/-! DEFINITION. Every flag computation of the machine (10_state.md R26): the value VF receives from the five flag
producing ALU instructions and from DRW, always 0x00 or 0x01. -/

namespace Sys2Proof.Machine

/-- A flag as the byte VF holds. -/
def flagByte (b : Bool) : Byte := if b then 0x01 else 0x00

/-- ADD: 1 iff `a + b >= 256` (42_load_alu.md R109). -/
def addFlag (a b : Byte) : Bool := 256 ≤ a.toNat + b.toNat

/-- SUB and, with its operands exchanged, SUBN: 1 iff `a > b`, strictly (42_load_alu.md R110, R112; conflict C3). -/
def subFlag (a b : Byte) : Bool := b.toNat < a.toNat

/-- SHR: the bit shifted out, old bit 0 (42_load_alu.md R111). -/
def shrFlag (a : Byte) : Bool := a.getLsbD 0

/-- SHL: the bit shifted out, old bit 7 (42_load_alu.md R113). -/
def shlFlag (a : Byte) : Bool := a.getLsbD 7

/-- Result and flag of a flag producing ALU instruction: the result to `V[x]` first, the flag to VF second, so that
with `x` = 0xF the flag remains (42_load_alu.md R102, log 12). -/
def State.setRegFlag (s : State) (x : Nibble) (result : Byte) (flag : Bool) : State :=
  (s.setReg x result).setReg vf (flagByte flag)

end Sys2Proof.Machine
end

