-- ==== Sys2Proof/Machine/Operands.lean ====
section
/-! DEFINITION. The operand forms (30_encoding.md R63, 43_index_memory.md R126): immediates widened with zeros, the
conditional skip, the address `I + j`, the key a register selects, the glyph address, the digits of BCD, the sprite of
DRW, the byte drawn from RandomSource. -/

namespace Sys2Proof.Machine

/-- `zext_16(nnn)` (30_encoding.md R63). -/
def zextAddr (nnn : Addr) : Word := nnn.setWidth 16

/-- `zext_16` of a byte (00_scope.md R14). -/
def zextByte (b : Byte) : Word := b.setWidth 16

/-- "Skip next instruction": `PC + 2` on top of the advance already made (41_control_flow.md R90). -/
def State.skipIf (s : State) (c : Bool) : State := if c then s.advance else s

/-- The address of the first byte of a data access: `I`, as a natural number, never narrowed (20_memory.md R40,
43_index_memory.md R126). -/
def State.base (s : State) : Nat := s.i.toNat

/-- A key selected by a register's value: above 15 it is a fatal condition (45_keys_timers.md R140). -/
def keyCheck (k : Byte) : Option Fatal := if k.toNat > 15 then some (.keyIndex k) else none

/-- The key a register's value selects; the value is at most 15 wherever this is used (45_keys_timers.md R140). -/
def keyOf (k : Byte) : Fin 16 := Fin.ofNat 16 k.toNat

/-- The lowest pressed key, if any is pressed (45_keys_timers.md R144). -/
def State.lowestKey (s : State) : Option (Fin 16) := (List.finRange 16).find? fun k => s.keyDown k

/-- The address of the glyph of a digit, `FONT_BASE + 5 * Vx`, the whole value of Vx used (43_index_memory.md R122,
log 4, log 13). -/
def glyphAddress (d : Byte) : Word := BitVec.ofNat 16 (Config.fontBase.val + Config.glyphSize * d.toNat)

/-- The three decimal digits of a byte: hundreds, tens, ones (43_index_memory.md R123). -/
def bcdDigits (a : Byte) : List Byte :=
  [BitVec.ofNat 8 (a.toNat / 100), BitVec.ofNat 8 (a.toNat / 10 % 10), BitVec.ofNat 8 (a.toNat % 10)]

/-- The next byte RandomSource supplies: a free value (42_load_alu.md R115, log 5). -/
def State.drawnByte (s : State) : Byte := Config.randomByte s.draws

/-- The state after one byte has been drawn (42_load_alu.md R115). -/
def State.countDraw (s : State) : State := { s with draws := s.draws + 1 }

/-- One row of a sprite: its 8 columns left to right, bit 7 leftmost, each passed to `fb_set` at a wrapped column of
row `py`; the collisions are gathered (44_display.md R134, R136, R137). -/
def drawRow (x0 : Nat) (py : Fin 32) (b : Byte) (d : Bool × Framebuffer) : Bool × Framebuffer :=
  (List.range 8).foldl
    (fun d c =>
      let r := fbSet d.2 (wrapX (x0 + c)) py (b.getMsbD c)
      (d.1 || r.1, r.2)) d

/-- The rows of a sprite, top to bottom from row `y0`, each wrapped modulo 32 (44_display.md R134, R135). -/
def drawRows (x0 : Nat) : Nat → List Byte → Bool × Framebuffer → Bool × Framebuffer
  | _, [], d => d
  | y0, b :: bs, d => drawRows x0 (y0 + 1) bs (drawRow x0 (wrapY y0) b d)

/-- The collision flag and framebuffer after drawing the sprite `bs` at column `vx` modulo 64 and row `vy` modulo 32
(44_display.md R134). -/
def drawSprite (vx vy : Byte) (bs : List Byte) (fb : Framebuffer) : Bool × Framebuffer :=
  drawRows (vx.toNat % 64) (vy.toNat % 32) bs (false, fb)

end Sys2Proof.Machine
end

