-- ==== Sys2Proof/Machine/Alu.lean ====
section
/-! DEFINITION. Register load, 8-bit ALU and random (42_load_alu.md R100 to R116). Operands are read from the state as
it was before any write of the instruction (R101). -/

namespace Sys2Proof.Machine

/-- `6xkk` LD (42_load_alu.md R103). -/
def execLdVxKk (x : Nibble) (kk : Byte) (s : State) : Result := .next (s.setReg x kk)

/-- `7xkk` ADD: wraps modulo 256, no flag (42_load_alu.md R104). -/
def execAddVxKk (x : Nibble) (kk : Byte) (s : State) : Result := .next (s.setReg x (s.reg x + kk))

/-- `8xy0` LD (42_load_alu.md R105). -/
def execLdVxVy (x y : Nibble) (s : State) : Result := .next (s.setReg x (s.reg y))

/-- `8xy1` OR, no flag (42_load_alu.md R106). -/
def execOrVxVy (x y : Nibble) (s : State) : Result := .next (s.setReg x (s.reg x ||| s.reg y))

/-- `8xy2` AND, no flag (42_load_alu.md R107). -/
def execAndVxVy (x y : Nibble) (s : State) : Result := .next (s.setReg x (s.reg x &&& s.reg y))

/-- `8xy3` XOR, no flag (42_load_alu.md R108). -/
def execXorVxVy (x y : Nibble) (s : State) : Result := .next (s.setReg x (s.reg x ^^^ s.reg y))

/-- `8xy4` ADD: VF is the carry (42_load_alu.md R109). -/
def execAddVxVy (x y : Nibble) (s : State) : Result :=
  .next (s.setRegFlag x (s.reg x + s.reg y) (addFlag (s.reg x) (s.reg y)))

/-- `8xy5` SUB: VF is `Vx > Vy` (42_load_alu.md R110). -/
def execSubVxVy (x y : Nibble) (s : State) : Result :=
  .next (s.setRegFlag x (s.reg x - s.reg y) (subFlag (s.reg x) (s.reg y)))

/-- `8xy6` SHR: VF is old bit 0; `y` is ignored (42_load_alu.md R111). -/
def execShrVx (x _y : Nibble) (s : State) : Result :=
  .next (s.setRegFlag x (s.reg x >>> 1) (shrFlag (s.reg x)))

/-- `8xy7` SUBN: VF is `Vy > Vx` (42_load_alu.md R112). -/
def execSubnVxVy (x y : Nibble) (s : State) : Result :=
  .next (s.setRegFlag x (s.reg y - s.reg x) (subFlag (s.reg y) (s.reg x)))

/-- `8xy8`, or `8xyE` with `SHL_SEL` = 0xE, SHL: VF is old bit 7; `y` is ignored (42_load_alu.md R113). -/
def execShlVx (x _y : Nibble) (s : State) : Result :=
  .next (s.setRegFlag x (s.reg x <<< 1) (shlFlag (s.reg x)))

/-- RND with a given drawn byte (42_load_alu.md R114). -/
def rndWith (r : Byte) (x : Nibble) (kk : Byte) (s : State) : State := s.countDraw.setReg x (r &&& kk)

/-- `Cxkk` RND: one byte is drawn per execution, also when `kk` = 0 (42_load_alu.md R114, R115, log 5). -/
def execRndVxKk (x : Nibble) (kk : Byte) (s : State) : Result := .next (rndWith s.drawnByte x kk s)

end Sys2Proof.Machine
end

