-- ==== Sys2Proof/Machine/Control.lean ====
section
/-! DEFINITION. Control transfer (41_control_flow.md R90 to R98). Each meaning is the execute phase: `PC` has already
been advanced past the instruction (40_step_cycle.md R82). -/

namespace Sys2Proof.Machine

/-- RET raises on an empty stack (60_exceptions.md R175). -/
def retCheck (s : State) : Option Fatal := if s.sp.val = 0 then some .stackUnderflow else none

/-- CALL raises on a full stack (60_exceptions.md R174). -/
def callCheck (s : State) : Option Fatal :=
  if s.sp.val = Config.stackDepth then some .stackOverflow else none

/-- `00EE` RET (41_control_flow.md R91). -/
def execRet (s : State) : Result := guarded (retCheck s) s s.popPc

/-- `1nnn` JP (41_control_flow.md R92). -/
def execJp (nnn : Addr) (s : State) : Result := .next (s.setPc (zextAddr nnn))

/-- `2nnn` CALL: pushes the advanced `PC` (41_control_flow.md R93). -/
def execCall (nnn : Addr) (s : State) : Result :=
  guarded (callCheck s) s (s.pushPc.setPc (zextAddr nnn))

/-- `3xkk` SE (41_control_flow.md R94). -/
def execSeVxKk (x : Nibble) (kk : Byte) (s : State) : Result := .next (s.skipIf (s.reg x == kk))

/-- `4xkk` SNE (41_control_flow.md R95). -/
def execSneVxKk (x : Nibble) (kk : Byte) (s : State) : Result := .next (s.skipIf (s.reg x != kk))

/-- `5xy0` SE (41_control_flow.md R96). -/
def execSeVxVy (x y : Nibble) (s : State) : Result := .next (s.skipIf (s.reg x == s.reg y))

/-- `9xy0` SNE (41_control_flow.md R97). -/
def execSneVxVy (x y : Nibble) (s : State) : Result := .next (s.skipIf (s.reg x != s.reg y))

/-- `Bnnn` JP V0: a 16-bit sum, not reduced modulo 4096 (41_control_flow.md R98, log 19). -/
def execJpV0Nnn (nnn : Addr) (s : State) : Result :=
  .next (s.setPc (zextByte (s.reg 0) + zextAddr nnn))

end Sys2Proof.Machine
end

