-- ==== Sys2Proof/Machine/Display.lean ====
section
/-! DEFINITION. The display instructions (44_display.md R133 to R138). -/

namespace Sys2Proof.Machine

/-- `00E0` CLS; VF is not written (44_display.md R133). -/
def execCls (s : State) : Result := .next (s.setFb fbClear)

/-- DRW reads `n` bytes from `I`; with `n` = 0 it reads none and cannot fault (44_display.md R134, R138). -/
def drwCheck (n : Nibble) (s : State) : Option Fatal := rangeCheck s.base n.toNat

/-- The framebuffer and VF after the sprite has been drawn; VF is written last, so the position comes from the old VF
when `x` or `y` is 0xF (44_display.md R134, R138). -/
def drwEffect (x y n : Nibble) (s : State) : State :=
  let d := drawSprite (s.reg x) (s.reg y) (Memory.readBytes s.mem s.base n.toNat) s.fb
  (s.setFb d.2).setReg vf (flagByte d.1)

/-- `Dxyn` DRW (44_display.md R134). -/
def execDrwVxVyN (x y n : Nibble) (s : State) : Result := guarded (drwCheck n s) s (drwEffect x y n s)

end Sys2Proof.Machine
end

