-- ==== Sys2Proof/Machine/IndexMemory.lean ====
section
/-! DEFINITION. The index register and the loads and stores (43_index_memory.md R120 to R125). None of them changes
`I` but the three that set it (00_scope.md R17). -/

namespace Sys2Proof.Machine

/-- `Annn` LD I (43_index_memory.md R120). -/
def execLdINnn (nnn : Addr) (s : State) : Result := .next (s.setI (zextAddr nnn))

/-- `Fx1E` ADD I: wraps modulo 65536, no flag (43_index_memory.md R121, log 14). -/
def execAddIVx (x : Nibble) (s : State) : Result := .next (s.setI (s.i + zextByte (s.reg x)))

/-- `Fx29` LD F: computes an address and reads no memory (43_index_memory.md R122). -/
def execLdFVx (x : Nibble) (s : State) : Result := .next (s.setI (glyphAddress (s.reg x)))

/-- LD B touches three bytes from `I` (43_index_memory.md R123). -/
def ldBCheck (s : State) : Option Fatal := rangeCheck s.base 3

/-- `Fx33` LD B: the digits of Vx at `I`, `I + 1`, `I + 2` (43_index_memory.md R123). -/
def execLdBVx (x : Nibble) (s : State) : Result :=
  guarded (ldBCheck s) s (s.storeBytes s.base (bcdDigits (s.reg x)))

/-- LD [I],Vx and LD Vx,[I] touch `x + 1` bytes from `I` (43_index_memory.md R124, R125). -/
def regsCheck (x : Nibble) (s : State) : Option Fatal := rangeCheck s.base (x.toNat + 1)

/-- `Fx55` LD [I],Vx: `V[0]` to `V[x]` stored at `I` to `I + x` (43_index_memory.md R124). -/
def execLdMemVx (x : Nibble) (s : State) : Result :=
  guarded (regsCheck x s) s (s.storeBytes s.base (s.regsTo x))

/-- `Fx65` LD Vx,[I]: `V[0]` to `V[x]` loaded from `I` to `I + x` (43_index_memory.md R125). -/
def execLdVxMem (x : Nibble) (s : State) : Result :=
  guarded (regsCheck x s) s (s.setRegsFrom0 (Memory.readBytes s.mem s.base (x.toNat + 1)))

end Sys2Proof.Machine
end

