-- ==== Sys2Proof/Machine/KeysTimers.lean ====
section
/-! DEFINITION. Key and timer instructions (45_keys_timers.md R140 to R146). -/

namespace Sys2Proof.Machine

/-- `Ex9E` SKP (45_keys_timers.md R141). -/
def execSkpVx (x : Nibble) (s : State) : Result :=
  guarded (keyCheck (s.reg x)) s (s.skipIf (s.keyDown (keyOf (s.reg x))))

/-- `ExA1` SKNP (45_keys_timers.md R142). -/
def execSknpVx (x : Nibble) (s : State) : Result :=
  guarded (keyCheck (s.reg x)) s (s.skipIf (!s.keyDown (keyOf (s.reg x))))

/-- `Fx07` LD Vx,DT (45_keys_timers.md R143). -/
def execLdVxDt (x : Nibble) (s : State) : Result := .next (s.setReg x s.dt)

/-- `Fx0A` LD Vx,K: the lowest pressed key, or back to this instruction's own address when no key is pressed; the
step completes either way (45_keys_timers.md R144). -/
def execLdVxK (x : Nibble) (s : State) : Result :=
  match s.lowestKey with
  | some k => .next (s.setReg x (BitVec.ofNat 8 k.val))
  | none => .next (s.setPc (s.pc - 2))

/-- `Fx15` LD DT,Vx (45_keys_timers.md R145). -/
def execLdDtVx (x : Nibble) (s : State) : Result := .next (s.setDt (s.reg x))

/-- `Fx18` LD ST,Vx (45_keys_timers.md R146). -/
def execLdStVx (x : Nibble) (s : State) : Result := .next (s.setSt (s.reg x))

end Sys2Proof.Machine
end

