-- ==== Sys2Proof/Machine/Cycle.lean ====
section
/-! DEFINITION. The step cycle (40_step_cycle.md R80 to R88), and what a step reports to the host (46_host_operations.md
R154). -/

namespace Sys2Proof.Machine

/-- One STEP of a running machine: fetch, advance, decode, dispatch, in that order. A word that is no instruction has
no effect but the advance (40_step_cycle.md R80, R86). -/
def runCycle (s : State) : Result :=
  match fetchCheck s with
  | some f => .next (raise f s)
  | none =>
    match decodeWord s.shlSel s.fetchWord with
    | some i => exec i s.advance
    | none => .next s.advance

/-- STEP: a halted machine has no enabled step (40_step_cycle.md R88). -/
def cycle (s : State) : Result := if s.halt = .running then runCycle s else .fault (.halted s.halt)

/-- The fatal condition an instruction raises in a state, if it raises one; instructions not named here never do
(60_exceptions.md R171). -/
def instrCheck (i : Instr) (s : State) : Option Fatal :=
  match i with
  | .ret => retCheck s
  | .call _ => callCheck s
  | .drwVxVyN _ _ n => drwCheck n s
  | .skpVx x => keyCheck (s.reg x)
  | .sknpVx x => keyCheck (s.reg x)
  | .ldBVx _ => ldBCheck s
  | .ldMemVx x => regsCheck x s
  | .ldVxMem x => regsCheck x s
  | .cls | .jp _ | .seVxKk _ _ | .sneVxKk _ _ | .seVxVy _ _ | .sneVxVy _ _ | .ldVxKk _ _ | .addVxKk _ _
  | .ldVxVy _ _ | .orVxVy _ _ | .andVxVy _ _ | .xorVxVy _ _ | .addVxVy _ _ | .subVxVy _ _ | .shrVx _ _
  | .subnVxVy _ _ | .shlVx _ _ | .ldINnn _ | .jpV0Nnn _ | .rndVxKk _ _ | .ldVxDt _ | .ldVxK _ | .ldDtVx _
  | .ldStVx _ | .addIVx _ | .ldFVx _ => none

/-- What a STEP returns to the host, beside its effect on the state (46_host_operations.md R154, R163): completion;
completion with the diagnostic `UnrecognisedOpcode(op, a)`, which is stored nowhere (60_exceptions.md R180, log 11); a
fatal condition with its information (R171); or nothing, the machine being halted. -/
inductive Report where
  | ok
  | diag (op : Word) (a : Word)
  | fatal (f : Fatal)
  | halted
  deriving DecidableEq, Repr

/-- The report of the STEP that a state would take. -/
def stepReport (s : State) : Report :=
  if s.halt = .running then
    match fetchCheck s with
    | some f => .fatal f
    | none =>
      match decodeWord s.shlSel s.fetchWord with
      | some i =>
        match instrCheck i s.advance with
        | some f => .fatal f
        | none => .ok
      | none => .diag s.fetchWord s.pc
  else .halted

end Sys2Proof.Machine
end

