-- ==== Sys2Proof/Machine/Step.lean ====
section
/-! DEFINITION. The machine's step, and an instruction placed where the step fetches it. -/

namespace Sys2Proof.Machine

/-- The core's only transaction, STEP (40_step_cycle.md R80). -/
def step (s : State) : Host.Outcome State Fault Refusal := cycle s

/-- The state with the instruction whose table word is `w` stored where `step` fetches its next instruction, at `PC`
and `PC + 1`. It stands for the host's LOAD of a program (46_host_operations.md R151, log 23). -/
def State.withFetchWord (s : State) (nbits w : Nat) : State := s.placeWord (tableWord nbits w)

end Sys2Proof.Machine
end

