-- ==== Sys2Proof/Machine/Transactions.lean ====
section
/-! DEFINITION. The host's transactions (46_host_operations.md R150 to R164): what they do to the state and what they
return. `STEP` is one of them, so a list of transactions is one interleaving of host and core (R155, log 1). -/

namespace Sys2Proof.Machine

/-- The nine transactions (46_host_operations.md). FB_GET's coordinates are bounded types, since a call outside the
range has no meaning (R159); PRELOAD's image is exactly 512 bytes, the parameter `LOWMEM_IMAGE` (R153, log 6). -/
inductive Transaction where
  | reset
  | load (bytes : List Byte)
  | preload (image : Vector Byte 512)
  | step
  | tickTimers
  | setKey (index : Nat) (pressed : Bool)
  | fbGet (x : Fin 64) (y : Fin 32)
  | readDt
  | readSt
  deriving DecidableEq, Repr

/-- What a transaction returns to the host. -/
inductive Reply where
  | none                  -- RESET, PRELOAD and TICK_TIMERS return nothing
  | ok                    -- LOAD and SET_KEY, done
  | loadTooLarge          -- LOAD of more than 3584 bytes (R152)
  | noEffect              -- LOAD or SET_KEY on a halted machine (R163), whatever their argument (log 25)
  | fatal (f : Fatal)     -- SET_KEY with an index above 15 (R158)
  | stepped (r : Report)  -- STEP (R154)
  | pixel (b : Bool)      -- FB_GET (R159)
  | byte (b : Byte)       -- READ_DT, READ_ST (R160, R161)
  deriving DecidableEq, Repr

/-- RESET: every piece of state to its reset value, from any state, a halted one too (46_host_operations.md R150). The
machine's constant `SHL_SEL` stays (log 3), and `RandomSource`, which is no state of the machine, goes on where it
stands (log 5). -/
def hostReset (s : State) : State := { State.reset with shlSel := s.shlSel, draws := s.draws }

/-- LOAD: at most 3584 bytes copied to 0x200 on, nothing else changed; a larger image is rejected and nothing is
written (46_host_operations.md R151, R152). -/
def hostLoad (bytes : List Byte) (s : State) : Reply × State :=
  if bytes.length > Config.romMax then (.loadTooLarge, s)
  else (.ok, s.storeBytes Config.progBase bytes)

/-- PRELOAD: 512 bytes copied to 0x000 to 0x1FF (46_host_operations.md R153). -/
def hostPreload (image : Vector Byte 512) (s : State) : State := s.storeBytes 0 image.toList

/-- A timer one tick later: down by one unless it is 0 (46_host_operations.md R156). -/
def tick (t : Byte) : Byte := if t = 0 then 0 else t - 1

/-- TICK_TIMERS: both timers, each on its own (46_host_operations.md R156). -/
def hostTick (s : State) : State := { s with dt := tick s.dt, st := tick s.st }

/-- SET_KEY: one key's level; an index above 15 is fatal and sets no key (46_host_operations.md R157, R158). -/
def hostSetKey (index : Nat) (pressed : Bool) (s : State) : Reply × State :=
  if h : index < 16 then (.ok, { s with key := s.key.set index pressed h })
  else (.fatal (.hostKeyIndex index), raise (.hostKeyIndex index) s)

/-- STEP as the host sees it: the report, and the next state; a halted machine stays as it is (46_host_operations.md
R154, R163). -/
def hostStep (s : State) : Reply × State :=
  match step s with
  | .next t => (.stepped (stepReport s), t)
  | .fault _ => (.stepped (stepReport s), s)
  | .refused _ => (.stepped (stepReport s), s)

/-- A transaction's reply and the state after it. While `HALT` is set no transaction but RESET changes anything; the
reads return the frozen values (46_host_operations.md R163). DESIGN CHOICE: there LOAD of more than 3584 bytes and
SET_KEY with an index above 15 reply `noEffect` too, where R152 and R158 name other replies and the spec does not say
which holds on a halted machine (log 25). -/
def transact (t : Transaction) (s : State) : Reply × State :=
  match t with
  | .reset => (.none, hostReset s)
  | .load bytes => if s.halt = .running then hostLoad bytes s else (.noEffect, s)
  | .preload image => if s.halt = .running then (.none, hostPreload image s) else (.none, s)
  | .step => hostStep s
  | .tickTimers => if s.halt = .running then (.none, hostTick s) else (.none, s)
  | .setKey index pressed => if s.halt = .running then hostSetKey index pressed s else (.noEffect, s)
  | .fbGet x y => (.pixel (fbGet s.fb x y), s)
  | .readDt => (.byte s.dt, s)
  | .readSt => (.byte s.st, s)

/-- A run of the platform: transactions in their total order, each on the state the one before left
(46_host_operations.md R155), with every reply. -/
def transactAll : List Transaction → State → List Reply × State
  | [], s => ([], s)
  | t :: ts, s =>
    let r := transact t s
    let rest := transactAll ts r.2
    (r.1 :: rest.1, rest.2)

/-- The tone is on exactly when `ST` is not 0 (46_host_operations.md R162). -/
def toneOn (s : State) : Bool := s.st != 0

end Sys2Proof.Machine
end

