-- ==== Sys2Proof/Safety.lean ====
section
/-! DEFINITION. The terms claims are stated in: a running machine, a finished program, a clean step, the invariant, and
what "unchanged" means for each piece of state, said through what can be read of it. -/

namespace Sys2Proof.Machine

/-- The machine is running: no fatal condition has occurred. Every claim takes this as a premise (60_exceptions.md
R172). -/
abbrev State.Running (s : State) : Prop := s.halt = .running

/-- A finished program in the sense of 40_step_cycle.md R89 and 70_reset_and_hazards.md R198 (log 24): running, and a STEP maps
the state to itself. It says nothing of the host going on. -/
def State.Finished (s : State) : Prop := s.Running ∧ step s = .next s

/-- A step that executes an instruction: no diagnostic (60_exceptions.md R180) and no fatal condition. -/
def State.StepsCleanly (s : State) : Prop := stepReport s = .ok

/-- The invariant of the machine: memory is canonical and inside 0x000 to 0xFFF; `PC` is at most 0x10FE, "the largest
value any rule can compute" (10_state.md R30); every stack entry is a `PC` that CALL pushed, at most 0x1000. -/
abbrev State.Inv (s : State) : Prop :=
  Memory.wf s.mem = true ∧ s.pc.toNat ≤ 0x10FE ∧ ∀ j : Fin 16, (s.stack[j.val]).toNat ≤ 0x1000

/-- The pieces of the state (10_state.md R20), and the model's own two fields. -/
inductive Part where
  | mem | v | i | pc | stack | sp | dt | st | key | fb | halt | shlSel | draws
  deriving DecidableEq, Repr

/-- A piece of the state reads the same in two states: every byte, every register, every entry, every key, every
pixel. -/
def Part.Same (p : Part) (s t : State) : Prop :=
  match p with
  | .mem => ∀ a, t.readByte a = s.readByte a
  | .v => ∀ x, t.reg x = s.reg x
  | .i => t.i = s.i
  | .pc => t.pc = s.pc
  | .stack => ∀ j : Fin 16, t.stack[j.val] = s.stack[j.val]
  | .sp => t.sp = s.sp
  | .dt => t.dt = s.dt
  | .st => t.st = s.st
  | .key => ∀ k, t.keyDown k = s.keyDown k
  | .fb => ∀ x y, fbGet t.fb x y = fbGet s.fb x y
  | .halt => t.halt = s.halt
  | .shlSel => t.shlSel = s.shlSel
  | .draws => t.draws = s.draws

/-- Everything but the listed pieces reads in `t` as it did in `s`. -/
def Unchanged (except : List Part) (s t : State) : Prop := ∀ p, p ∉ except → p.Same s t

/-- Every register but the listed ones reads in `t` as it did in `s`. -/
def RegsKept (except : List Nibble) (s t : State) : Prop := ∀ x, x ∉ except → t.reg x = s.reg x

/-- Every byte of memory outside the `n` bytes from `a` reads in `t` as it did in `s`. -/
def BytesKept (a n : Nat) (s t : State) : Prop := ∀ b, b < a ∨ a + n ≤ b → t.readByte b = s.readByte b

/-- Register `x`, and nothing else, is written. -/
def WritesReg (x : Nibble) (s t : State) : Prop := RegsKept [x] s t ∧ Unchanged [.v] s t

/-- Register `x` and VF, and nothing else, are written. -/
def WritesRegAndFlag (x : Nibble) (s t : State) : Prop := RegsKept [x, vf] s t ∧ Unchanged [.v] s t

/-- The encoding of an instruction: under both values of `SHL_SEL`, every word with this pattern under this mask
decodes to it, its operands being the fields of the word (30_encoding.md R61, R66). -/
def Encoded (mask pattern : Word) (i : Word → Instr) : Prop :=
  ∀ (sel : ShlSel) (op : Word), op &&& mask = pattern → decodeWord sel op = some (i op)

/-- The pieces of the state an instruction's entry names as written, in its execute phase, when it completes or takes
its fatal condition (00_scope.md R17). -/
def instrWrites : Instr → List Part
  | .cls => [.fb]
  | .ret => [.pc, .sp, .halt]
  | .jp _ | .jpV0Nnn _ => [.pc]
  | .call _ => [.pc, .sp, .stack, .halt]
  | .seVxKk _ _ | .sneVxKk _ _ | .seVxVy _ _ | .sneVxVy _ _ => [.pc]
  | .skpVx _ | .sknpVx _ => [.pc, .halt]
  | .ldVxKk _ _ | .addVxKk _ _ | .ldVxVy _ _ | .orVxVy _ _ | .andVxVy _ _ | .xorVxVy _ _ | .addVxVy _ _
  | .subVxVy _ _ | .shrVx _ _ | .subnVxVy _ _ | .shlVx _ _ | .ldVxDt _ => [.v]
  | .rndVxKk _ _ => [.v, .draws]
  | .ldINnn _ | .addIVx _ | .ldFVx _ => [.i]
  | .drwVxVyN _ _ _ => [.v, .fb, .halt]
  | .ldVxK _ => [.v, .pc]
  | .ldDtVx _ => [.dt]
  | .ldStVx _ => [.st]
  | .ldBVx _ | .ldMemVx _ => [.mem, .halt]
  | .ldVxMem _ => [.v, .halt]

/-- The registers an instruction's entry names as written: its destination, and VF where it sets a flag
(00_scope.md R17, 10_state.md R26). -/
def InstrWritesReg (i : Instr) (r : Nibble) : Prop :=
  match i with
  | .ldVxKk x _ | .addVxKk x _ | .ldVxVy x _ | .orVxVy x _ | .andVxVy x _ | .xorVxVy x _ | .rndVxKk x _
  | .ldVxDt x | .ldVxK x => r = x
  | .addVxVy x _ | .subVxVy x _ | .shrVx x _ | .subnVxVy x _ | .shlVx x _ => r = x ∨ r = vf
  | .drwVxVyN _ _ _ => r = vf
  | .ldVxMem x => r.toNat ≤ x.toNat
  | .cls | .ret | .jp _ | .call _ | .seVxKk _ _ | .sneVxKk _ _ | .seVxVy _ _ | .sneVxVy _ _ | .ldINnn _
  | .jpV0Nnn _ | .skpVx _ | .sknpVx _ | .ldDtVx _ | .ldStVx _ | .addIVx _ | .ldFVx _ | .ldBVx _ | .ldMemVx _ => False

end Sys2Proof.Machine
end

