-- ==== Sys2Proof/Certificates/Slice0/Obligations.lean ====
section
/-! DEFINITION. The statements for the provers, about the machine and about no program. Each docstring names the rule
of spec/ it formalises; "decision D<n>" is a choice the spec marks as its own (92_eei_decisions.md), and "log <n>" is a
row of notes/assumptions. An instruction's statement opens with its encoding, the mask and pattern of R66; the rest is
about its execute phase, and `s` is the state after the advance. -/

open Sys2Proof Sys2Proof.Machine

/-! ### Encoding -/

/-- Words written out from the patterns of 30_encoding.md R66 decode, as bytes in memory order, to the instructions
they stand for (95_test_vectors.md T-ENC E01, E07, E09, E11, E17, E18, E21, E24, E25, E28, E05, E12). -/
def Obligations.KnownWordsDecode : Prop :=
  decodeBytes .eight [0x00, 0xE0] = .instr .cls [] ∧
  decodeBytes .eight [0x12, 0x34] = .instr (.jp 0x234) [] ∧
  decodeBytes .eight [0x3A, 0x7F] = .instr (.seVxKk 0xA 0x7F) [] ∧
  decodeBytes .eight [0x5A, 0xB0] = .instr (.seVxVy 0xA 0xB) [] ∧
  decodeBytes .eight [0x81, 0x24] = .instr (.addVxVy 0x1 0x2) [] ∧
  decodeBytes .eight [0x81, 0x28] = .instr (.shlVx 0x1 0x2) [] ∧
  decodeBytes .e [0x81, 0x2E] = .instr (.shlVx 0x1 0x2) [] ∧
  decodeBytes .eight [0xA1, 0x23] = .instr (.ldINnn 0x123) [] ∧
  decodeBytes .eight [0xD1, 0x25] = .instr (.drwVxVyN 0x1 0x2 0x5) [] ∧
  decodeBytes .eight [0xE1, 0x9E] = .instr (.skpVx 0x1) [] ∧
  decodeBytes .eight [0xF1, 0x65] = .instr (.ldVxMem 0x1) [] ∧
  decodeBytes .eight [0x0A, 0xBC] = .unrecognised 0x0ABC [] ∧
  decodeBytes .eight [0x5A, 0xB1] = .unrecognised 0x5AB1 []

/-- For both values of `SHL_SEL`, every instruction's bytes decode to that instruction with every operand as it was,
whatever bytes follow (30_encoding.md R60, R61, R66, R67). -/
def Obligations.DecodeAfterEncode : Prop :=
  ∀ (sel : ShlSel) (i : Instr) (rest : List Byte), decodeBytes sel (encodeBytes sel i ++ rest) = .instr i rest

/-- The other direction: a word that decodes is the encoding of what it decodes to, so no bit of a word is dropped, the
ignored `y` of SHR and SHL included (30_encoding.md R61, R65, R66). -/
def Obligations.EncodeAfterDecode : Prop :=
  ∀ (sel : ShlSel) (op : Word) (i : Instr), decodeWord sel op = some i → encodeWord sel i = op

/-- A word is an instruction exactly when it matches a row of the opcode map, and it never matches two
(30_encoding.md R64; that no word matches two rows is the spec's own inference there). The rows are the masks and
patterns of R66, with both values of `SHL_SEL` (R67, decision D2, log 3). -/
def Obligations.InstructionIffOneRowMatches : Prop :=
  ∀ (sel : ShlSel) (op : Word),
    ((∃ i, decodeWord sel op = some i) ↔ ∃ r ∈ opcodeMap sel, op &&& r.mask = r.pattern) ∧
    ∀ r₁ ∈ opcodeMap sel, ∀ r₂ ∈ opcodeMap sel, op &&& r₁.mask = r₁.pattern → op &&& r₂.mask = r₂.pattern → r₁ = r₂

/-- The unrecognised words, class by class (30_encoding.md, section 3). The trailing nibble of SHL is decision D2
(log 3), and that every `0xy2` is unrecognised is decision D3 (log 17). -/
def Obligations.UnrecognisedWordClasses : Prop :=
  ∀ (sel : ShlSel) (op : Word),
    decodeWord sel op = none ↔
      (fieldN3 op = 0x0 ∧ op ≠ 0x00E0 ∧ op ≠ 0x00EE) ∨
      (fieldN3 op = 0x5 ∧ fieldN op ≠ 0x0) ∨
      (fieldN3 op = 0x8 ∧ 8 ≤ (fieldN op).toNat ∧ fieldN op ≠ (match sel with | .eight => 0x8 | .e => 0xE)) ∨
      (fieldN3 op = 0x9 ∧ fieldN op ≠ 0x0) ∨
      (fieldN3 op = 0xE ∧ fieldKk op ∉ [0x9E, 0xA1]) ∨
      (fieldN3 op = 0xF ∧ fieldKk op ∉ [0x07, 0x0A, 0x15, 0x18, 0x1E, 0x29, 0x33, 0x55, 0x65])

/-! ### The step cycle -/

/-- When the two bytes at `PC` decode to an instruction, a step of a running machine is the execute phase of that
instruction at the state whose `PC` has been advanced by 2, a sum that does not wrap (40_step_cycle.md R80 to R84). -/
def Obligations.StepRunsDecodedInstruction : Prop :=
  ∀ (s : State) (i : Instr), s.Running → s.pc.toNat ≤ 0xFFE →
    decodeBytes s.shlSel [s.readByte s.pc.toNat, s.readByte (s.pc.toNat + 1)] = .instr i [] →
    step s = exec i { s with pc := s.pc + 2 } ∧ (s.pc + 2).toNat = s.pc.toNat + 2

/-- A fetch with `PC` above 0x0FFE latches FETCH_RANGE and does nothing else: `PC` is not advanced (40_step_cycle.md
R81, 60_exceptions.md R177). The range and the latch are decisions D7 and D11 (log 15, log 2). -/
def Obligations.FetchOutOfRangeIsFatal : Prop :=
  ∀ s : State, s.Running → 0xFFE < s.pc.toNat →
    step s = .next { s with halt := .fetchRange } ∧ stepReport s = .fatal (.fetchRange s.pc.toNat)

/-- A word that is no instruction: the step completes, only `PC` changes, by 2, and the report is the diagnostic with
the word and the address it was fetched from (40_step_cycle.md R86). What the diagnostic carries is decision D14
(log 11). -/
def Obligations.UnrecognisedWordIsNoOp : Prop :=
  ∀ s : State, s.Running → s.pc.toNat ≤ 0xFFE →
    (∀ i, decodeWord s.shlSel (wordOfBytes (s.readByte s.pc.toNat) (s.readByte (s.pc.toNat + 1))) ≠ some i) →
    ∃ t, step s = .next t ∧ t.pc = s.pc + 2 ∧ Unchanged [.pc] s t ∧
      stepReport s = .diag (wordOfBytes (s.readByte s.pc.toNat) (s.readByte (s.pc.toNat + 1))) s.pc

/-- A halted machine has no enabled step (40_step_cycle.md R88), and no sequence of transactions without RESET changes
anything of it (46_host_operations.md R163). Decisions D11 and D20 (log 2). -/
def Obligations.HaltedMachineIsFrozen : Prop :=
  ∀ s : State, ¬ s.Running →
    step s = .fault (.halted s.halt) ∧
    ∀ ts : List Transaction, .reset ∉ ts → (transactAll ts s).2 = s

/-- "A `STEP` ends in exactly one of three ways": completion, with every write of the instruction's execute phase made;
completion with one diagnostic; or a fatal condition after which the machine is halted. There is no fourth outcome
(40_step_cycle.md R85), and STEP as the host's transaction leaves that state and returns that report
(46_host_operations.md R154). What the diagnostic carries is decision D14, and the report as a function of the state is
the model's choice (log 11); the latch is decision D11, and a fatal condition as a next state the model's reading
(log 2). -/
def Obligations.StepEndsInOneOfThreeWays : Prop :=
  ∀ s : State, s.Running → ∃ t, step s = .next t ∧ transact .step s = (.stepped (stepReport s), t) ∧
    ((t.Running ∧ stepReport s = .ok ∧
        ∃ i, decodeWord s.shlSel s.fetchWord = some i ∧ exec i { s with pc := s.pc + 2 } = .next t) ∨
     (t.Running ∧ ∃ op, stepReport s = .diag op s.pc ∧ t.pc = s.pc + 2 ∧ Unchanged [.pc] s t) ∨
     (¬ t.Running ∧ ∃ f, stepReport s = .fatal f ∧ t.halt = f.cause))

/-- State at halt: whatever fatal condition a step takes, and whichever instruction raises it, `PC` is advanced past
the instruction (not at all for FETCH_RANGE) and everything else is as it was; and a SET_KEY that is fatal changes the
latch alone (60_exceptions.md R173). Decision D11 (log 2). -/
def Obligations.FatalConditionsArePrecise : Prop :=
  (∀ s t : State, s.Running → step s = .next t → ¬ t.Running →
    Unchanged [.pc, .halt] s t ∧ t.pc = if t.halt = .fetchRange then s.pc else s.pc + 2) ∧
  ∀ (s : State) (k : Nat) (b : Bool), s.Running → ¬ (transact (.setKey k b) s).2.Running →
    Unchanged [.halt] s (transact (.setKey k b) s).2 ∧ (transact (.setKey k b) s).2.halt = .hostKeyIndex

/-- Which fatal condition an instruction raises, and when; no other instruction ever raises one (60_exceptions.md
R171, R182). The conditions on memory and key indices are decisions D6 and D10, the latch D11 (log 15, log 16,
log 2). -/
def Obligations.OnlyNamedInstructionsRaise : Prop :=
  ∀ (i : Instr) (s t : State), s.Running → exec i s = .next t →
    t.halt =
      match i with
      | .ret => if s.sp.val = 0 then .stackUnderflow else .running
      | .call _ => if s.sp.val = 16 then .stackOverflow else .running
      | .drwVxVyN _ _ n => if 0 < n.toNat ∧ s.i.toNat + n.toNat - 1 > 0xFFF then .memRange else .running
      | .ldBVx _ => if s.i.toNat + 2 > 0xFFF then .memRange else .running
      | .ldMemVx x => if s.i.toNat + x.toNat > 0xFFF then .memRange else .running
      | .ldVxMem x => if s.i.toNat + x.toNat > 0xFFF then .memRange else .running
      | .skpVx x => if (s.reg x).toNat > 15 then .keyIndex else .running
      | .sknpVx x => if (s.reg x).toNat > 15 then .keyIndex else .running
      | _ => .running

/-! ### Control transfer -/

/-- RET on a stack that is not empty completes: `SP` goes down by one, `PC` is the most recent entry, which keeps its
value (41_control_flow.md R91, 10_state.md R31). The slot numbering is decision D12 (log 9). -/
def Obligations.RetPops : Prop :=
  Encoded 0xFFFF 0x00EE (fun _ => .ret) ∧
  ∀ (s : State) (h : 0 < s.sp.val), ∃ t, exec .ret s = .next t ∧
    t.sp.val = s.sp.val - 1 ∧ t.pc = s.stack[s.sp.val - 1]'(by have := s.sp.isLt; omega) ∧
    Unchanged [.pc, .sp] s t

/-- CALL on a stack that is not full completes: the advanced `PC` goes to the entry at `SP`, `SP` goes up by one, `PC`
is `nnn`; every other entry is as it was (41_control_flow.md R93). The slot numbering is decision D12 (log 9). -/
def Obligations.CallPushes : Prop :=
  Encoded 0xF000 0x2000 (fun op => .call (fieldNnn op)) ∧
  ∀ (s : State) (nnn : Addr), s.sp.val < 16 → ∃ t, exec (.call nnn) s = .next t ∧
    (∀ j : Fin 16, t.stack[j.val] = if j.val = s.sp.val then s.pc else s.stack[j.val]) ∧
    t.sp.val = s.sp.val + 1 ∧ t.pc.toNat = nnn.toNat ∧ Unchanged [.pc, .sp, .stack] s t

/-- CALL on a full stack and RET on an empty one take their fatal condition and do nothing else (60_exceptions.md R174,
R175; the latch is decision D11, log 2). -/
def Obligations.StackFaultsChangeNothing : Prop :=
  (∀ (s : State) (nnn : Addr), s.sp.val = 16 → exec (.call nnn) s = .next { s with halt := .stackOverflow }) ∧
  ∀ s : State, s.sp.val = 0 → exec .ret s = .next { s with halt := .stackUnderflow }

/-- "executing CALL nnn then RET restores the program counter to the instruction immediately after the CALL, and stack
pointer returns to its pre-CALL value" (41_control_flow.md R93; source example S8); only a dead stack entry differs. -/
def Obligations.CallThenRetRestores : Prop :=
  ∀ (s : State) (nnn : Addr), s.sp.val < 16 → ∃ t u, exec (.call nnn) s = .next t ∧ exec .ret t = .next u ∧
    u.pc = s.pc ∧ u.sp = s.sp ∧ Unchanged [.stack] s u ∧
    ∀ j : Fin 16, j.val < s.sp.val → u.stack[j.val] = s.stack[j.val]

/-- JP sets `PC` to the address and changes nothing else (41_control_flow.md R92). -/
def Obligations.JumpSetsPc : Prop :=
  Encoded 0xF000 0x1000 (fun op => .jp (fieldNnn op)) ∧
  ∀ (s : State) (nnn : Addr), ∃ t, exec (.jp nnn) s = .next t ∧ t.pc.toNat = nnn.toNat ∧ Unchanged [.pc] s t

/-- JP V0 sets `PC` to the sum of `V0` and the address, not reduced to 12 bits (41_control_flow.md R98). That it is not
reduced is decision D23 (log 19). -/
def Obligations.IndexedJumpAddsV0 : Prop :=
  Encoded 0xF000 0xB000 (fun op => .jpV0Nnn (fieldNnn op)) ∧
  ∀ (s : State) (nnn : Addr), ∃ t, exec (.jpV0Nnn nnn) s = .next t ∧
    t.pc.toNat = (s.reg 0).toNat + nnn.toNat ∧ Unchanged [.pc] s t

/-- SE and SNE, with an immediate and on two registers: one more advance of 2 when the operands are equal, or differ,
as unsigned 8-bit values; nothing else changes (41_control_flow.md R90, R94, R95, R96, R97). -/
def Obligations.ConditionalSkips : Prop :=
  Encoded 0xF000 0x3000 (fun op => .seVxKk (fieldX op) (fieldKk op)) ∧
  Encoded 0xF000 0x4000 (fun op => .sneVxKk (fieldX op) (fieldKk op)) ∧
  Encoded 0xF00F 0x5000 (fun op => .seVxVy (fieldX op) (fieldY op)) ∧
  Encoded 0xF00F 0x9000 (fun op => .sneVxVy (fieldX op) (fieldY op)) ∧
  (∀ (sel : ShlSel) (op : Word), fieldN3 op ∈ [0x5, 0x9] → fieldN op ≠ 0x0 → decodeWord sel op = none) ∧
  ∀ (s : State) (x y : Nibble) (kk : Byte),
    (∃ t, exec (.seVxKk x kk) s = .next t ∧
      t.pc = (if (s.reg x).toNat = kk.toNat then s.pc + 2 else s.pc) ∧ Unchanged [.pc] s t) ∧
    (∃ t, exec (.sneVxKk x kk) s = .next t ∧
      t.pc = (if (s.reg x).toNat = kk.toNat then s.pc else s.pc + 2) ∧ Unchanged [.pc] s t) ∧
    (∃ t, exec (.seVxVy x y) s = .next t ∧
      t.pc = (if (s.reg x).toNat = (s.reg y).toNat then s.pc + 2 else s.pc) ∧ Unchanged [.pc] s t) ∧
    (∃ t, exec (.sneVxVy x y) s = .next t ∧
      t.pc = (if (s.reg x).toNat = (s.reg y).toNat then s.pc else s.pc + 2) ∧ Unchanged [.pc] s t)

/-! ### Load, ALU and random -/

/-- LD of an immediate, ADD of an immediate modulo 256 with no flag, LD of a register: the destination, and nothing
else, is written; with `x` = 0xF, VF is an ordinary destination (42_load_alu.md R103, R104, R105). -/
def Obligations.LoadAndAddImmediate : Prop :=
  Encoded 0xF000 0x6000 (fun op => .ldVxKk (fieldX op) (fieldKk op)) ∧
  Encoded 0xF000 0x7000 (fun op => .addVxKk (fieldX op) (fieldKk op)) ∧
  Encoded 0xF00F 0x8000 (fun op => .ldVxVy (fieldX op) (fieldY op)) ∧
  ∀ (s : State) (x y : Nibble) (kk : Byte),
    (∃ t, exec (.ldVxKk x kk) s = .next t ∧ t.reg x = kk ∧ WritesReg x s t) ∧
    (∃ t, exec (.addVxKk x kk) s = .next t ∧ (t.reg x).toNat = ((s.reg x).toNat + kk.toNat) % 256 ∧ WritesReg x s t) ∧
    (∃ t, exec (.ldVxVy x y) s = .next t ∧ t.reg x = s.reg y ∧ WritesReg x s t)

/-- OR, AND and XOR, bit by bit; no flag is written (42_load_alu.md R106, R107, R108). -/
def Obligations.LogicIsBitwise : Prop :=
  Encoded 0xF00F 0x8001 (fun op => .orVxVy (fieldX op) (fieldY op)) ∧
  Encoded 0xF00F 0x8002 (fun op => .andVxVy (fieldX op) (fieldY op)) ∧
  Encoded 0xF00F 0x8003 (fun op => .xorVxVy (fieldX op) (fieldY op)) ∧
  ∀ (s : State) (x y : Nibble),
    (∃ t, exec (.orVxVy x y) s = .next t ∧
      (∀ k, (t.reg x).getLsbD k = ((s.reg x).getLsbD k || (s.reg y).getLsbD k)) ∧ WritesReg x s t) ∧
    (∃ t, exec (.andVxVy x y) s = .next t ∧
      (∀ k, (t.reg x).getLsbD k = ((s.reg x).getLsbD k && (s.reg y).getLsbD k)) ∧ WritesReg x s t) ∧
    (∃ t, exec (.xorVxVy x y) s = .next t ∧
      (∀ k, (t.reg x).getLsbD k = ((s.reg x).getLsbD k ^^ (s.reg y).getLsbD k)) ∧ WritesReg x s t)

/-- ADD: the sum modulo 256, and VF = 1 iff the sum is at least 256, else 0 (42_load_alu.md R109). That with `x` = 0xF
the flag remains and the sum is lost is decision D9 (log 12). -/
def Obligations.AddSetsCarry : Prop :=
  Encoded 0xF00F 0x8004 (fun op => .addVxVy (fieldX op) (fieldY op)) ∧
  ∀ (s : State) (x y : Nibble), ∃ t, exec (.addVxVy x y) s = .next t ∧
    (x ≠ 0xF → (t.reg x).toNat = ((s.reg x).toNat + (s.reg y).toNat) % 256) ∧
    (t.reg 0xF).toNat = (if (s.reg x).toNat + (s.reg y).toNat ≥ 256 then 1 else 0) ∧ WritesRegAndFlag x s t

/-- SUB: Vx - Vy modulo 256, and VF = 1 iff Vx > Vy, so 0 at equality (42_load_alu.md R110, conflict C3). With `x` = 0xF
the flag remains: decision D9 (log 12). -/
def Obligations.SubSetsGreater : Prop :=
  Encoded 0xF00F 0x8005 (fun op => .subVxVy (fieldX op) (fieldY op)) ∧
  ∀ (s : State) (x y : Nibble), ∃ t, exec (.subVxVy x y) s = .next t ∧
    (x ≠ 0xF → ((t.reg x).toNat : Int) = ((s.reg x).toNat - (s.reg y).toNat : Int) % 256) ∧
    (t.reg 0xF).toNat = (if (s.reg x).toNat > (s.reg y).toNat then 1 else 0) ∧ WritesRegAndFlag x s t

/-- SHR: Vx / 2, and VF = old bit 0; `y` plays no part (42_load_alu.md R111, 30_encoding.md R65). With `x` = 0xF the
flag remains: decision D9 (log 12). -/
def Obligations.ShrHalves : Prop :=
  Encoded 0xF00F 0x8006 (fun op => .shrVx (fieldX op) (fieldY op)) ∧
  ∀ (s : State) (x y : Nibble), ∃ t, exec (.shrVx x y) s = .next t ∧
    (x ≠ 0xF → (t.reg x).toNat = (s.reg x).toNat / 2) ∧
    (t.reg 0xF).toNat = (s.reg x).toNat % 2 ∧ WritesRegAndFlag x s t

/-- SUBN: Vy - Vx modulo 256, and VF = 1 iff Vy > Vx, so 0 at equality (42_load_alu.md R112). With `x` = 0xF the flag
remains: decision D9 (log 12). -/
def Obligations.SubnSetsGreater : Prop :=
  Encoded 0xF00F 0x8007 (fun op => .subnVxVy (fieldX op) (fieldY op)) ∧
  ∀ (s : State) (x y : Nibble), ∃ t, exec (.subnVxVy x y) s = .next t ∧
    (x ≠ 0xF → ((t.reg x).toNat : Int) = ((s.reg y).toNat - (s.reg x).toNat : Int) % 256) ∧
    (t.reg 0xF).toNat = (if (s.reg y).toNat > (s.reg x).toNat then 1 else 0) ∧ WritesRegAndFlag x s t

/-- SHL: 2 Vx modulo 256, and VF = old bit 7 as 0 or 1; `y` plays no part (42_load_alu.md R113, 30_encoding.md R65).
With `x` = 0xF the flag remains: decision D9 (log 12). -/
def Obligations.ShlDoubles : Prop :=
  (∀ (sel : ShlSel) (op : Word), op &&& 0xF00F = sel.pattern →
    decodeWord sel op = some (.shlVx (fieldX op) (fieldY op))) ∧
  ∀ (s : State) (x y : Nibble), ∃ t, exec (.shlVx x y) s = .next t ∧
    (x ≠ 0xF → (t.reg x).toNat = 2 * (s.reg x).toNat % 256) ∧
    (t.reg 0xF).toNat = (s.reg x).toNat / 128 ∧ WritesRegAndFlag x s t

/-- RND: the drawn byte AND `kk`, so every bit where `kk` has a 0 is 0; one byte is drawn, also when `kk` = 0
(42_load_alu.md R114). The drawn byte is a free value, `Config.randomByte` at the count of draws (R115, decision D15,
log 5). -/
def Obligations.RandomIsMasked : Prop :=
  Encoded 0xF000 0xC000 (fun op => .rndVxKk (fieldX op) (fieldKk op)) ∧
  ∀ (s : State) (x : Nibble) (kk : Byte), ∃ t, exec (.rndVxKk x kk) s = .next t ∧
    (∀ k, (t.reg x).getLsbD k = ((Config.randomByte s.draws).getLsbD k && kk.getLsbD k)) ∧
    t.draws = s.draws + 1 ∧ RegsKept [x] s t ∧ Unchanged [.v, .draws] s t

/-- "The core, given the drawn value, is deterministic" (42_load_alu.md R115): no instruction but RND depends on
`RandomSource` or moves it on. `draws` is the model's own field (log 5). -/
def Obligations.OnlyRndReadsRandomSource : Prop :=
  ∀ (i : Instr) (s t : State) (n : Nat), (∀ x kk, i ≠ .rndVxKk x kk) → exec i s = .next t →
    exec i { s with draws := n } = .next { t with draws := n }

/-! ### Index register and memory -/

/-- LD I sets `I` to the address, its top four bits 0 (43_index_memory.md R120). -/
def Obligations.LoadIndexSetsI : Prop :=
  Encoded 0xF000 0xA000 (fun op => .ldINnn (fieldNnn op)) ∧
  ∀ (s : State) (nnn : Addr), ∃ t, exec (.ldINnn nnn) s = .next t ∧ t.i.toNat = nnn.toNat ∧ Unchanged [.i] s t

/-- ADD I adds Vx to `I` and writes no flag (43_index_memory.md R121). The wrap at 16 bits is decision D8 (log 14). -/
def Obligations.AddIndexWraps : Prop :=
  Encoded 0xF0FF 0xF01E (fun op => .addIVx (fieldX op)) ∧
  ∀ (s : State) (x : Nibble), ∃ t, exec (.addIVx x) s = .next t ∧
    t.i.toNat = (s.i.toNat + (s.reg x).toNat) % 65536 ∧ Unchanged [.i] s t

/-- LD F sets `I` to `FONT_BASE + 5 * Vx`, all of Vx used (43_index_memory.md R122). `FONT_BASE` is an open constant
with `FONT_BASE + 80 <= 0x200` (decision D4, log 4); that Vx is not masked is decision D5 (log 13). -/
def Obligations.GlyphAddressSetsI : Prop :=
  Encoded 0xF0FF 0xF029 (fun op => .ldFVx (fieldX op)) ∧
  Config.fontBase.val + 80 ≤ 0x200 ∧
  ∀ (s : State) (x : Nibble), ∃ t, exec (.ldFVx x) s = .next t ∧
    t.i.toNat = Config.fontBase.val + 5 * (s.reg x).toNat ∧ Unchanged [.i] s t

/-- LD B inside memory stores hundreds, tens and ones at `I`, `I + 1`, `I + 2`; each is a decimal digit, together they
make Vx again; `I` and every other byte are as they were (43_index_memory.md R123). The range is decision D6
(log 15). -/
def Obligations.BcdStoresDigits : Prop :=
  Encoded 0xF0FF 0xF033 (fun op => .ldBVx (fieldX op)) ∧
  ∀ (s : State) (x : Nibble), s.i.toNat + 2 ≤ 0xFFF → ∃ t, exec (.ldBVx x) s = .next t ∧
    (t.readByte s.i.toNat).toNat = (s.reg x).toNat / 100 ∧
    (t.readByte (s.i.toNat + 1)).toNat = (s.reg x).toNat / 10 % 10 ∧
    (t.readByte (s.i.toNat + 2)).toNat = (s.reg x).toNat % 10 ∧
    BytesKept s.i.toNat 3 s t ∧ Unchanged [.mem] s t

/-- LD [I],Vx inside memory stores `V0` to `Vx` at `I` to `I + x`; `I`, the registers and every other byte are as they
were (43_index_memory.md R124). The range is decision D6 (log 15). -/
def Obligations.RegistersStored : Prop :=
  Encoded 0xF0FF 0xF055 (fun op => .ldMemVx (fieldX op)) ∧
  ∀ (s : State) (x : Nibble), s.i.toNat + x.toNat ≤ 0xFFF → ∃ t, exec (.ldMemVx x) s = .next t ∧
    (∀ j : Nibble, j.toNat ≤ x.toNat → t.readByte (s.i.toNat + j.toNat) = s.reg j) ∧
    BytesKept s.i.toNat (x.toNat + 1) s t ∧ Unchanged [.mem] s t

/-- LD Vx,[I] inside memory loads `V0` to `Vx` from `I` to `I + x`, VF like any register; the other registers, `I` and
memory are as they were (43_index_memory.md R125). The range is decision D6 (log 15). -/
def Obligations.RegistersLoaded : Prop :=
  Encoded 0xF0FF 0xF065 (fun op => .ldVxMem (fieldX op)) ∧
  ∀ (s : State) (x : Nibble), s.i.toNat + x.toNat ≤ 0xFFF → ∃ t, exec (.ldVxMem x) s = .next t ∧
    (∀ j : Nibble, t.reg j = if j.toNat ≤ x.toNat then s.readByte (s.i.toNat + j.toNat) else s.reg j) ∧
    Unchanged [.v] s t

/-- LD Vx,[I] is the inverse of LD [I],Vx: registers stored and then loaded, from any state with that memory and that
`I`, come back, whatever was in the registers between (43_index_memory.md R124, R125). -/
def Obligations.StoreThenLoadRestoresRegisters : Prop :=
  ∀ (s t u : State) (x : Nibble), s.Running → t.Running → exec (.ldMemVx x) s = .next t →
    (∀ a, u.readByte a = t.readByte a) → u.i = t.i →
    ∃ w, exec (.ldVxMem x) u = .next w ∧ ∀ j : Nibble, j.toNat ≤ x.toNat → w.reg j = s.reg j

/-- An access whose highest byte lies above 0xFFF latches MEM_RANGE and does nothing else: no byte, no register, no
pixel, no flag (20_memory.md R44, 60_exceptions.md R176). Decisions D6 and D11 (log 15, log 2). -/
def Obligations.OutOfRangeAccessChangesNothing : Prop :=
  ∀ (s : State) (x y n : Nibble),
    (0 < n.toNat → s.i.toNat + n.toNat - 1 > 0xFFF →
      exec (.drwVxVyN x y n) s = .next { s with halt := .memRange }) ∧
    (s.i.toNat + 2 > 0xFFF → exec (.ldBVx x) s = .next { s with halt := .memRange }) ∧
    (s.i.toNat + x.toNat > 0xFFF → exec (.ldMemVx x) s = .next { s with halt := .memRange }) ∧
    (s.i.toNat + x.toNat > 0xFFF → exec (.ldVxMem x) s = .next { s with halt := .memRange })

/-- Self-modifying code works: when a step stores `V0` and `V1` over the next word of the program, that word is the one
the next step fetches (20_memory.md R57). -/
def Obligations.StoreIsSeenByNextFetch : Prop :=
  ∀ (s : State) (x : Nibble), s.Running → s.pc.toNat ≤ 0xFFC → 1 ≤ x.toNat → s.i.toNat + x.toNat ≤ 0xFFF →
    s.i.toNat = s.pc.toNat + 2 → decodeWord s.shlSel s.fetchWord = some (.ldMemVx x) →
    ∃ t, step s = .next t ∧ t.Running ∧ t.pc.toNat = s.pc.toNat + 2 ∧
      t.fetchWord = wordOfBytes (s.reg 0) (s.reg 1)

/-! ### Display -/

/-- CLS turns every pixel off and changes nothing else, VF included (44_display.md R133). -/
def Obligations.ClearTurnsPixelsOff : Prop :=
  Encoded 0xFFFF 0x00E0 (fun _ => .cls) ∧
  ∀ s : State, ∃ t, exec .cls s = .next t ∧ (∀ x y, fbGet t.fb x y = false) ∧ Unchanged [.fb] s t

/-- `fb_set` reports a collision exactly when the pixel was on and is set again, from the value before the update; it
XORs that pixel and leaves every other as it was (44_display.md R132). -/
def Obligations.SetPixelXorsOnePixel : Prop :=
  ∀ (fb : Framebuffer) (x z : Fin 64) (y w : Fin 32) (on : Bool),
    ((fbSet fb x y on).1 = true ↔ fbGet fb x y = true ∧ on = true) ∧
    fbGet (fbSet fb x y on).2 z w = if z = x ∧ w = y then (fbGet fb z w ^^ on) else fbGet fb z w

/-- DRW inside memory, or with no rows: a pixel flips exactly when some 1 bit of the sprite falls on it, rows and
columns wrapping; VF is 1 iff such a pixel was on before, else 0; nothing else changes (44_display.md R134 to R138).
The range is decision D6 and the reading of operands before the flag is written D9 (log 15, log 12). -/
def Obligations.DrawXorsSprite : Prop :=
  Encoded 0xF000 0xD000 (fun op => .drwVxVyN (fieldX op) (fieldY op) (fieldN op)) ∧
  ∀ (s : State) (x y n : Nibble), n.toNat = 0 ∨ s.i.toNat + n.toNat - 1 ≤ 0xFFF →
    ∃ t, exec (.drwVxVyN x y n) s = .next t ∧
    (∀ (px : Fin 64) (py : Fin 32), fbGet t.fb px py = true ↔
      Xor (fbGet s.fb px py = true) (∃ r < n.toNat, ∃ c < 8,
        ((s.reg x).toNat + c) % 64 = px.val ∧ ((s.reg y).toNat + r) % 32 = py.val ∧
        (s.readByte (s.i.toNat + r)).getLsbD (7 - c) = true)) ∧
    (t.reg 0xF = 0 ∨ t.reg 0xF = 1) ∧
    (t.reg 0xF = 1 ↔ ∃ (px : Fin 64) (py : Fin 32), fbGet s.fb px py = true ∧ ∃ r < n.toNat, ∃ c < 8,
        ((s.reg x).toNat + c) % 64 = px.val ∧ ((s.reg y).toNat + r) % 32 = py.val ∧
        (s.readByte (s.i.toNat + r)).getLsbD (7 - c) = true) ∧
    RegsKept [0xF] s t ∧ Unchanged [.v, .fb] s t

/-- A sprite drawn twice at one place leaves the framebuffer as it was, if neither coordinate is VF (44_display.md
R134; the example there). -/
def Obligations.DrawTwiceRestoresPixels : Prop :=
  ∀ (s t u : State) (x y n : Nibble), s.Running → t.Running → x ≠ 0xF → y ≠ 0xF →
    exec (.drwVxVyN x y n) s = .next t → exec (.drwVxVyN x y n) t = .next u →
    ∀ (px : Fin 64) (py : Fin 32), fbGet u.fb px py = fbGet s.fb px py

/-! ### Keys and timers -/

/-- SKP and SKNP with a key index of at most 15 skip on the level of that key and change nothing else
(45_keys_timers.md R141, R142). The bound is decision D10 (log 16). -/
def Obligations.KeySkips : Prop :=
  Encoded 0xF0FF 0xE09E (fun op => .skpVx (fieldX op)) ∧
  Encoded 0xF0FF 0xE0A1 (fun op => .sknpVx (fieldX op)) ∧
  ∀ (s : State) (x : Nibble) (k : Fin 16), (s.reg x).toNat = k.val →
    (∃ t, exec (.skpVx x) s = .next t ∧
      t.pc = (if s.keyDown k = true then s.pc + 2 else s.pc) ∧ Unchanged [.pc] s t) ∧
    (∃ t, exec (.sknpVx x) s = .next t ∧
      t.pc = (if s.keyDown k = true then s.pc else s.pc + 2) ∧ Unchanged [.pc] s t)

/-- SKP and SKNP with a key index above 15 latch KEY_INDEX and do nothing else (45_keys_timers.md R140). Decisions D10
and D11 (log 16, log 2). -/
def Obligations.KeyIndexOutOfRangeIsFatal : Prop :=
  ∀ (s : State) (x : Nibble), (s.reg x).toNat > 15 →
    exec (.skpVx x) s = .next { s with halt := .keyIndex } ∧
    exec (.sknpVx x) s = .next { s with halt := .keyIndex }

/-- LD Vx,DT reads the delay timer; LD DT,Vx and LD ST,Vx set a timer from Vx; nothing else changes (45_keys_timers.md
R143, R145, R146). -/
def Obligations.TimerMoves : Prop :=
  Encoded 0xF0FF 0xF007 (fun op => .ldVxDt (fieldX op)) ∧
  Encoded 0xF0FF 0xF015 (fun op => .ldDtVx (fieldX op)) ∧
  Encoded 0xF0FF 0xF018 (fun op => .ldStVx (fieldX op)) ∧
  ∀ (s : State) (x : Nibble),
    (∃ t, exec (.ldVxDt x) s = .next t ∧ t.reg x = s.dt ∧ WritesReg x s t) ∧
    (∃ t, exec (.ldDtVx x) s = .next t ∧ t.dt = s.reg x ∧ Unchanged [.dt] s t) ∧
    (∃ t, exec (.ldStVx x) s = .next t ∧ t.st = s.reg x ∧ Unchanged [.st] s t)

/-- LD Vx,K completes either way: with some key pressed Vx becomes the least pressed index and `PC` stays; with none,
only `PC` changes, back by 2 (45_keys_timers.md R144). -/
def Obligations.KeyWaitTakesLowestKey : Prop :=
  Encoded 0xF0FF 0xF00A (fun op => .ldVxK (fieldX op)) ∧
  ∀ (s : State) (x : Nibble),
    (∀ k : Fin 16, s.keyDown k = true → (∀ j : Fin 16, s.keyDown j = true → k ≤ j) →
      ∃ t, exec (.ldVxK x) s = .next t ∧ (t.reg x).toNat = k.val ∧ WritesReg x s t) ∧
    ((∀ k : Fin 16, s.keyDown k = false) →
      ∃ t, exec (.ldVxK x) s = .next t ∧ t.pc = s.pc - 2 ∧ Unchanged [.pc] s t)

/-- With no key pressed, the whole step of a key wait changes nothing at all: "program counter is unchanged after the
step" (45_keys_timers.md R144). -/
def Obligations.KeyWaitWithoutKeyIsFixedPoint : Prop :=
  ∀ (s : State) (x : Nibble), s.Running → s.pc.toNat ≤ 0xFFE →
    decodeWord s.shlSel s.fetchWord = some (.ldVxK x) → (∀ k : Fin 16, s.keyDown k = false) → step s = .next s

/-! ### Host transactions -/

/-- The state after RESET, from any state and at the start: every byte, register, stack entry, timer, key and pixel
zero, `PC` at 0x200, the latch clear (46_host_operations.md R150, 70_reset_and_hazards.md R190). The latch is decision
D11 (log 2); the framebuffer is conflict C6. The model's own two fields are not spoken of (log 3, log 5). -/
def Obligations.ResetZeroesEverything : Prop :=
  ∀ s t : State, t = (transact .reset s).2 ∨ t = State.reset →
    (∀ a, t.readByte a = 0) ∧ (∀ x, t.reg x = 0) ∧ t.i = 0 ∧ t.pc = 0x200 ∧
    (∀ j : Fin 16, t.stack[j.val] = 0) ∧ t.sp = 0 ∧ t.dt = 0 ∧ t.st = 0 ∧ (∀ k, t.keyDown k = false) ∧
    (∀ x y, fbGet t.fb x y = false) ∧ t.Running

/-- LOAD of at most 3584 bytes copies them to 0x200 on, verbatim, and changes no other byte and nothing else
(46_host_operations.md R151); a larger image is rejected and nothing is written (R152). Decision D16 (log 18). -/
def Obligations.LoadCopiesOrRejects : Prop :=
  ∀ (s : State) (bytes : List Byte), s.Running →
    (bytes.length ≤ 3584 → (transact (.load bytes) s).1 = .ok ∧
      (∀ (j : Nat) (h : j < bytes.length), (transact (.load bytes) s).2.readByte (0x200 + j) = bytes[j]) ∧
      BytesKept 0x200 bytes.length s (transact (.load bytes) s).2 ∧
      Unchanged [.mem] s (transact (.load bytes) s).2) ∧
    (3584 < bytes.length → transact (.load bytes) s = (.loadTooLarge, s))

/-- PRELOAD copies 512 bytes to 0x000 to 0x1FF and changes no other byte and nothing else (46_host_operations.md R153).
The transaction is decision D17 (log 6). -/
def Obligations.PreloadCopies : Prop :=
  ∀ (s : State) (image : Vector Byte 512), s.Running →
    (∀ (j : Nat) (h : j < 512), (transact (.preload image) s).2.readByte j = image[j]) ∧
    BytesKept 0 512 s (transact (.preload image) s).2 ∧ Unchanged [.mem] s (transact (.preload image) s).2

/-- TICK_TIMERS lowers each timer by one if it is not zero, each on its own, and changes nothing else
(46_host_operations.md R156). -/
def Obligations.TickLowersTimers : Prop :=
  ∀ s : State, s.Running →
    (transact .tickTimers s).2.dt.toNat = (if s.dt.toNat ≠ 0 then s.dt.toNat - 1 else 0) ∧
    (transact .tickTimers s).2.st.toNat = (if s.st.toNat ≠ 0 then s.st.toNat - 1 else 0) ∧
    Unchanged [.dt, .st] s (transact .tickTimers s).2

/-- "A timer loaded with `v` reaches 0 after exactly `v` ticks if it is not rewritten" (46_host_operations.md R156): it
is 0 after `n` ticks exactly when `n` is at least its value. -/
def Obligations.TimerRunsDown : Prop :=
  ∀ (s : State) (n : Nat), s.Running →
    ((transactAll (List.replicate n .tickTimers) s).2.dt = 0 ↔ s.dt.toNat ≤ n) ∧
    ((transactAll (List.replicate n .tickTimers) s).2.st = 0 ↔ s.st.toNat ≤ n)

/-- SET_KEY with an index of at most 15 sets that key's level and nothing else (46_host_operations.md R157); with a
larger index it latches HOST_KEY_INDEX and sets no key (R158, decision D24, log 22). -/
def Obligations.SetKeySetsOneLevel : Prop :=
  ∀ (s : State) (index : Nat) (pressed : Bool), s.Running →
    (index ≤ 15 → (transact (.setKey index pressed) s).1 = .ok ∧
      (∀ k : Fin 16, (transact (.setKey index pressed) s).2.keyDown k =
        if k.val = index then pressed else s.keyDown k) ∧
      Unchanged [.key] s (transact (.setKey index pressed) s).2) ∧
    (15 < index → transact (.setKey index pressed) s =
      (.fatal (.hostKeyIndex index), { s with halt := .hostKeyIndex }))

/-- FB_GET returns one pixel, READ_DT and READ_ST a timer, and they change nothing; a halted machine answers them with
its frozen values (46_host_operations.md R159, R160, R161, R163). -/
def Obligations.HostReadsReturnState : Prop :=
  ∀ (s : State) (x : Fin 64) (y : Fin 32),
    transact (.fbGet x y) s = (.pixel (s.fb[y.val].getLsbD (63 - x.val)), s) ∧
    transact .readDt s = (.byte s.dt, s) ∧ transact .readSt s = (.byte s.st, s)

/-! ### The whole machine -/

/-- The invariant holds after RESET (10_state.md R21; the bounds are the model's reading of R30). -/
def Obligations.ResetMeetsInvariant : Prop := State.reset.Inv

/-- Every step keeps the invariant, from every state that meets it: memory stays canonical and inside its 4096 bytes,
`PC` stays at most 0x10FE, "the largest value any rule can compute" (10_state.md R30, an inference the spec marks), and
the stack holds addresses of at most 0x1000. -/
def Obligations.StepKeepsInvariant : Prop :=
  ∀ s t : State, s.Inv → step s = .next t → t.Inv

/-- Every interleaving of steps and host transactions keeps the invariant (46_host_operations.md R155, decision D20,
log 1). -/
def Obligations.EveryInterleavingKeepsInvariant : Prop :=
  ∀ (ts : List Transaction) (s : State), s.Inv → (transactAll ts s).2.Inv

/-- A step never changes a key, changes `DT` or `ST` only by executing LD DT,Vx or LD ST,Vx, and changes `HALT` only by
raising a fatal condition (40_step_cycle.md R87), whose cause it then holds. The latch is decision D11 (log 2), the
report is log 11. -/
def Obligations.StepLeavesHostStateAlone : Prop :=
  ∀ s t : State, step s = .next t →
    (∀ k, t.keyDown k = s.keyDown k) ∧
    (t.dt ≠ s.dt → ∃ x, decodeWord s.shlSel s.fetchWord = some (.ldDtVx x)) ∧
    (t.st ≠ s.st → ∃ x, decodeWord s.shlSel s.fetchWord = some (.ldStVx x)) ∧
    (t.halt ≠ s.halt → ∃ f, stepReport s = .fatal f ∧ t.halt = f.cause)

/-- The closed world reading: in its execute phase an instruction writes only the state its entry names, and among the
registers only those it names: its destination, and VF where it sets a flag (00_scope.md R17, 10_state.md R26, R27).
The reading is decision D19 (log 21). -/
def Obligations.WritesOnlyWhatTheEntryNames : Prop :=
  ∀ (i : Instr) (s t : State), exec i s = .next t →
    Unchanged (instrWrites i) s t ∧ ∀ r, t.reg r ≠ s.reg r → InstrWritesReg i r

/-- No instruction reads the sound timer: with any other value of `ST` an instruction does the same to everything else,
and leaves `ST` as it found it unless it is LD ST,Vx (10_state.md R33, 45_keys_timers.md R143). -/
def Obligations.NoInstructionReadsSoundTimer : Prop :=
  ∀ (i : Instr) (s t : State) (b : Byte), exec i s = .next t →
    exec i { s with st := b } = .next { t with st := match i with | .ldStVx _ => t.st | _ => b }

/-- A jump to its own address is a finished program: every step leaves the whole state unchanged (40_step_cycle.md
R89, 41_control_flow.md R92). The definition of a finished program is decision D22 (log 24). -/
def Obligations.JumpToSelfIsFinished : Prop :=
  ∀ (s : State) (nnn : Addr), s.Running → s.pc.toNat ≤ 0xFFE → s.pc.toNat = nnn.toNat →
    decodeWord s.shlSel s.fetchWord = some (.jp nnn) → s.Finished
end

