-- ==== Sys2Proof/Laws/Decode.lean ====
section
/-! SUPPORT. The fields of a word built from its parts, for the three shapes of the formats (30_encoding.md R61, R62):
leading nibble and address; leading nibble, register and byte; four nibbles. -/

namespace Sys2Proof

/-- Reading a low part of a joined value. -/
theorem extract_append_low {p q : Nat} (a : BitVec p) (b : BitVec q) (k w : Nat) (h : k + w ≤ q) :
    (a ++ b).extractLsb' k w = b.extractLsb' k w := by
  ext i hi
  simp [BitVec.getLsbD_append, show k + i < q by omega]

/-- Reading a high part of a joined value. -/
theorem extract_append_high {p q : Nat} (a : BitVec p) (b : BitVec q) (k w : Nat) (h : q ≤ k) :
    (a ++ b).extractLsb' k w = a.extractLsb' (k - q) w := by
  ext i hi
  simp [BitVec.getLsbD_append, show ¬ k + i < q by omega, show k + i - q = k - q + i by omega]

/-- Reading all of a value. -/
theorem extract_all {w : Nat} (a : BitVec w) : a.extractLsb' 0 w = a := by
  ext i hi
  simp

@[simp] theorem fieldN3_joinNnn (a : Nibble) (nnn : Addr) : fieldN3 (joinNnn a nnn) = a :=
  (extract_append_high a nnn 12 4 (by omega)).trans (extract_all a)

@[simp] theorem fieldNnn_joinNnn (a : Nibble) (nnn : Addr) : fieldNnn (joinNnn a nnn) = nnn :=
  (extract_append_low a nnn 0 12 (by omega)).trans (extract_all nnn)

@[simp] theorem fieldN3_joinXkk (a x : Nibble) (kk : Byte) : fieldN3 (joinXkk a x kk) = a :=
  (extract_append_high (a ++ x) kk 12 4 (by omega)).trans
    ((extract_append_high a x 4 4 (by omega)).trans (extract_all a))

@[simp] theorem fieldX_joinXkk (a x : Nibble) (kk : Byte) : fieldX (joinXkk a x kk) = x :=
  (extract_append_high (a ++ x) kk 8 4 (by omega)).trans
    ((extract_append_low a x 0 4 (by omega)).trans (extract_all x))

@[simp] theorem fieldKk_joinXkk (a x : Nibble) (kk : Byte) : fieldKk (joinXkk a x kk) = kk :=
  (extract_append_low (a ++ x) kk 0 8 (by omega)).trans (extract_all kk)

@[simp] theorem fieldN3_joinXyn (a x y n : Nibble) : fieldN3 (joinXyn a x y n) = a :=
  (extract_append_high (a ++ x ++ y) n 12 4 (by omega)).trans
    ((extract_append_high (a ++ x) y 8 4 (by omega)).trans
      ((extract_append_high a x 4 4 (by omega)).trans (extract_all a)))

@[simp] theorem fieldX_joinXyn (a x y n : Nibble) : fieldX (joinXyn a x y n) = x :=
  (extract_append_high (a ++ x ++ y) n 8 4 (by omega)).trans
    ((extract_append_high (a ++ x) y 4 4 (by omega)).trans
      ((extract_append_low a x 0 4 (by omega)).trans (extract_all x)))

@[simp] theorem fieldY_joinXyn (a x y n : Nibble) : fieldY (joinXyn a x y n) = y :=
  (extract_append_high (a ++ x ++ y) n 4 4 (by omega)).trans
    ((extract_append_low (a ++ x) y 0 4 (by omega)).trans (extract_all y))

@[simp] theorem fieldN_joinXyn (a x y n : Nibble) : fieldN (joinXyn a x y n) = n :=
  (extract_append_low (a ++ x ++ y) n 0 4 (by omega)).trans (extract_all n)

/-- Two adjacent fields joined are the field that covers both. -/
theorem extract_join {w : Nat} (a : BitVec w) (k p q : Nat) :
    a.extractLsb' (k + q) p ++ a.extractLsb' k q = a.extractLsb' k (p + q) := by
  ext i hi
  simp only [BitVec.getElem_append, BitVec.getElem_extractLsb']
  split
  · rfl
  · congr 1; omega

/-- Every word is its four nibbles, in order (30_encoding.md R61). -/
theorem joinXyn_fields (op : Word) : joinXyn (fieldN3 op) (fieldX op) (fieldY op) (fieldN op) = op := by
  have h1 := extract_join op 8 4 4
  have h2 := extract_join op 4 8 4
  have h3 := extract_join op 0 12 4
  unfold joinXyn fieldN3 fieldX fieldY fieldN
  exact ((congrArg (fun u => u ++ op.extractLsb' 4 4 ++ op.extractLsb' 0 4) h1).trans
    ((congrArg (fun u => u ++ op.extractLsb' 0 4) h2).trans h3)).trans (extract_all op)

/-- Every word is its leading nibble, `x` and `kk` (30_encoding.md R61). -/
theorem joinXkk_fields (op : Word) : joinXkk (fieldN3 op) (fieldX op) (fieldKk op) = op := by
  have h1 := extract_join op 8 4 4
  have h2 := extract_join op 0 8 8
  unfold joinXkk fieldN3 fieldX fieldKk
  exact ((congrArg (fun u => u ++ op.extractLsb' 0 8) h1).trans h2).trans (extract_all op)

/-- Every word is its leading nibble and `nnn` (30_encoding.md R61). -/
theorem joinNnn_fields (op : Word) : joinNnn (fieldN3 op) (fieldNnn op) = op :=
  (extract_join op 0 4 12).trans (extract_all op)

/-- The two bytes of a word, high byte first, make the word again (20_memory.md R46). -/
@[simp] theorem wordOfBytes_bytes (op : Word) : wordOfBytes (highByte op) (lowByte op) = op :=
  (extract_join op 0 8 8).trans (extract_all op)

@[simp] theorem highByte_wordOfBytes (hi lo : Byte) : highByte (wordOfBytes hi lo) = hi :=
  (extract_append_high hi lo 8 8 (by omega)).trans (extract_all hi)

@[simp] theorem lowByte_wordOfBytes (hi lo : Byte) : lowByte (wordOfBytes hi lo) = lo :=
  (extract_append_low hi lo 0 8 (by omega)).trans (extract_all lo)

/-- A nibble is one of sixteen values: the case split of every proof over words. -/
theorem nibble_cases (a : Nibble) :
    a = 0x0 ∨ a = 0x1 ∨ a = 0x2 ∨ a = 0x3 ∨ a = 0x4 ∨ a = 0x5 ∨ a = 0x6 ∨ a = 0x7 ∨
    a = 0x8 ∨ a = 0x9 ∨ a = 0xA ∨ a = 0xB ∨ a = 0xC ∨ a = 0xD ∨ a = 0xE ∨ a = 0xF := by
  revert a; decide

/-- The decoder on two bytes is the decoder on the word they make. -/
theorem decodeBytes_cons (sel : ShlSel) (hi lo : Byte) (rest : List Byte) :
    decodeBytes sel (hi :: lo :: rest) =
      match decodeWord sel (wordOfBytes hi lo) with
      | some i => .instr i rest
      | none => .unrecognised (wordOfBytes hi lo) rest := rfl

/-! ### A word of each format under the masks of the opcode map (30_encoding.md R64) -/

/-- The AND of two joined values, part by part. -/
theorem append_and {p q : Nat} (a a' : BitVec p) (b b' : BitVec q) :
    (a ++ b) &&& (a' ++ b') = (a &&& a') ++ (b &&& b') := by
  ext i hi
  simp only [BitVec.getElem_and, BitVec.getElem_append]
  split <;> simp

theorem nibble_and_ones (a : Nibble) : a &&& 0xF#4 = a := by revert a; decide

/-- Two words of four nibbles are equal nibble by nibble. -/
theorem joinXyn_inj (a x y n a' x' y' n' : Nibble) :
    joinXyn a x y n = joinXyn a' x' y' n' ↔ a = a' ∧ x = x' ∧ y = y' ∧ n = n' := by
  constructor
  · intro h
    exact ⟨by simpa using congrArg fieldN3 h, by simpa using congrArg fieldX h, by simpa using congrArg fieldY h,
      by simpa using congrArg fieldN h⟩
  · rintro ⟨rfl, rfl, rfl, rfl⟩; rfl

theorem joinXyn_and (a x y n a' x' y' n' : Nibble) :
    joinXyn a x y n &&& joinXyn a' x' y' n' = joinXyn (a &&& a') (x &&& x') (y &&& y') (n &&& n') := by
  unfold joinXyn
  exact (append_and _ _ _ _).trans (congrArg (· ++ (n &&& n'))
    ((append_and _ _ _ _).trans (congrArg (· ++ (y &&& y')) (append_and _ _ _ _))))

/-- A word matches a mask and pattern exactly when each of its four nibbles does. -/
theorem word_and_eq_iff (op m p : Word) :
    op &&& m = p ↔
      fieldN3 op &&& fieldN3 m = fieldN3 p ∧ fieldX op &&& fieldX m = fieldX p ∧
      fieldY op &&& fieldY m = fieldY p ∧ fieldN op &&& fieldN m = fieldN p := by
  conv => lhs; rw [← joinXyn_fields op, ← joinXyn_fields m, ← joinXyn_fields p, joinXyn_and, joinXyn_inj]

/-- The low byte of a word of four nibbles. -/
theorem fieldKk_eq (op : Word) : fieldKk op = fieldY op ++ fieldN op := (extract_join op 0 4 4).symm

theorem joinNnn_and_F000 (a : Nibble) (nnn : Addr) : joinNnn a nnn &&& 0xF000 = joinNnn a 0x000#12 :=
  (append_and a 0xF#4 nnn 0x000#12).trans (by simp [nibble_and_ones, joinNnn])

theorem joinXkk_and_F000 (a x : Nibble) (kk : Byte) : joinXkk a x kk &&& 0xF000 = joinXkk a 0x0#4 0x00#8 :=
  (append_and (a ++ x) (0xF#4 ++ 0x0#4) kk 0x00#8).trans (by rw [append_and]; simp [nibble_and_ones, joinXkk])

theorem joinXkk_and_F0FF (a x : Nibble) (kk : Byte) : joinXkk a x kk &&& 0xF0FF = joinXkk a 0x0#4 kk := by
  have h : kk &&& 0xFF#8 = kk := by revert kk; decide
  exact (append_and (a ++ x) (0xF#4 ++ 0x0#4) kk 0xFF#8).trans (by rw [append_and]; simp [nibble_and_ones, joinXkk, h])

theorem joinXyn_and_F000 (a x y n : Nibble) :
    joinXyn a x y n &&& 0xF000 = joinXyn a 0x0#4 0x0#4 0x0#4 :=
  (append_and (a ++ x ++ y) (0xF#4 ++ 0x0#4 ++ 0x0#4) n 0x0#4).trans
    (by rw [append_and, append_and]; simp [nibble_and_ones, joinXyn])

theorem joinXyn_and_F00F (a x y n : Nibble) :
    joinXyn a x y n &&& 0xF00F = joinXyn a 0x0#4 0x0#4 n :=
  (append_and (a ++ x ++ y) (0xF#4 ++ 0x0#4 ++ 0x0#4) n 0xF#4).trans
    (by rw [append_and, append_and]; simp [nibble_and_ones, joinXyn])

/-- A word that matches a row of the map is well formed. -/
theorem wellFormedWord_of_row (sel : ShlSel) (op : Word) (r : Row) (hr : r ∈ opcodeMap sel)
    (h : op &&& r.mask = r.pattern) : wellFormedWord sel op = true := by
  simp only [wellFormedWord, List.any_eq_true]
  exact ⟨r, hr, by simpa [Row.matches] using h⟩

end Sys2Proof
end

