-- ==== Sys2Proof/Laws/Encoding.lean ====
section
/-! SUPPORT. From the masks of the opcode map to the decoder: every word with a row's pattern under the row's mask
decodes to the row's instruction (30_encoding.md R64, R66). One lemma per mask. -/

namespace Sys2Proof

/-- The mask of a fixed word keeps every bit. -/
theorem word_and_ones (op : Word) : op &&& 0xFFFF = op := by
  rw [show (0xFFFF : Word) = BitVec.allOnes 16 from rfl, BitVec.and_allOnes]

/-- Under the mask 0xF000 a pattern fixes the leading nibble. -/
theorem fields_of_F000 (op p : Word) (h : op &&& 0xF000 = p) : fieldN3 op = fieldN3 p := by
  have h1 := ((word_and_eq_iff op 0xF000 p).1 h).1
  rw [← h1]
  exact (nibble_and_ones _).symm

/-- Under the mask 0xF00F a pattern fixes the leading and the trailing nibble. -/
theorem fields_of_F00F (op p : Word) (h : op &&& 0xF00F = p) : fieldN3 op = fieldN3 p ∧ fieldN op = fieldN p := by
  obtain ⟨h1, -, -, h4⟩ := (word_and_eq_iff op 0xF00F p).1 h
  rw [← h1, ← h4]
  exact ⟨(nibble_and_ones _).symm, (nibble_and_ones _).symm⟩

/-- Under the mask 0xF0FF a pattern fixes the leading nibble and the low byte. -/
theorem fields_of_F0FF (op p : Word) (h : op &&& 0xF0FF = p) : fieldN3 op = fieldN3 p ∧ fieldKk op = fieldKk p := by
  obtain ⟨h1, -, h3, h4⟩ := (word_and_eq_iff op 0xF0FF p).1 h
  refine ⟨h1 ▸ (nibble_and_ones _).symm, ?_⟩
  rw [fieldKk_eq, fieldKk_eq p, ← h3, ← h4]
  exact congrArg₂ (· ++ ·) (nibble_and_ones _).symm (nibble_and_ones _).symm

namespace Machine

/-- The two fixed words (30_encoding.md R66), in the order of their patterns. -/
theorem encoded_FFFF :
    Encoded 0xFFFF 0x00E0 (fun _ => .cls) ∧
    Encoded 0xFFFF 0x00EE (fun _ => .ret) := by
  refine ⟨?_, ?_⟩ <;> intro sel op h <;> rw [(word_and_ones op).symm.trans h] <;> rfl

/-- The rows that fix the leading nibble (30_encoding.md R66), in the order of their patterns. -/
theorem encoded_F000 :
    Encoded 0xF000 0x1000 (fun op => .jp (fieldNnn op)) ∧
    Encoded 0xF000 0x2000 (fun op => .call (fieldNnn op)) ∧
    Encoded 0xF000 0x3000 (fun op => .seVxKk (fieldX op) (fieldKk op)) ∧
    Encoded 0xF000 0x4000 (fun op => .sneVxKk (fieldX op) (fieldKk op)) ∧
    Encoded 0xF000 0x6000 (fun op => .ldVxKk (fieldX op) (fieldKk op)) ∧
    Encoded 0xF000 0x7000 (fun op => .addVxKk (fieldX op) (fieldKk op)) ∧
    Encoded 0xF000 0xA000 (fun op => .ldINnn (fieldNnn op)) ∧
    Encoded 0xF000 0xB000 (fun op => .jpV0Nnn (fieldNnn op)) ∧
    Encoded 0xF000 0xC000 (fun op => .rndVxKk (fieldX op) (fieldKk op)) ∧
    Encoded 0xF000 0xD000 (fun op => .drwVxVyN (fieldX op) (fieldY op) (fieldN op)) := by
  refine ⟨?_, ?_, ?_, ?_, ?_, ?_, ?_, ?_, ?_, ?_⟩ <;> intro sel op h <;> have h1 := fields_of_F000 op _ h <;>
    simp only [decodeWord, h1] <;> rfl

/-- The rows that fix the leading and the trailing nibble (30_encoding.md R66), in the order of their patterns. -/
theorem encoded_F00F :
    Encoded 0xF00F 0x5000 (fun op => .seVxVy (fieldX op) (fieldY op)) ∧
    Encoded 0xF00F 0x8000 (fun op => .ldVxVy (fieldX op) (fieldY op)) ∧
    Encoded 0xF00F 0x8001 (fun op => .orVxVy (fieldX op) (fieldY op)) ∧
    Encoded 0xF00F 0x8002 (fun op => .andVxVy (fieldX op) (fieldY op)) ∧
    Encoded 0xF00F 0x8003 (fun op => .xorVxVy (fieldX op) (fieldY op)) ∧
    Encoded 0xF00F 0x8004 (fun op => .addVxVy (fieldX op) (fieldY op)) ∧
    Encoded 0xF00F 0x8005 (fun op => .subVxVy (fieldX op) (fieldY op)) ∧
    Encoded 0xF00F 0x8006 (fun op => .shrVx (fieldX op) (fieldY op)) ∧
    Encoded 0xF00F 0x8007 (fun op => .subnVxVy (fieldX op) (fieldY op)) ∧
    Encoded 0xF00F 0x9000 (fun op => .sneVxVy (fieldX op) (fieldY op)) := by
  refine ⟨?_, ?_, ?_, ?_, ?_, ?_, ?_, ?_, ?_, ?_⟩ <;> intro sel op h <;> obtain ⟨h1, h2⟩ := fields_of_F00F op _ h <;>
    simp only [decodeWord, h1, h2] <;> rfl

/-- The rows that fix the leading nibble and the low byte (30_encoding.md R66), in the order of their patterns. -/
theorem encoded_F0FF :
    Encoded 0xF0FF 0xE09E (fun op => .skpVx (fieldX op)) ∧
    Encoded 0xF0FF 0xE0A1 (fun op => .sknpVx (fieldX op)) ∧
    Encoded 0xF0FF 0xF007 (fun op => .ldVxDt (fieldX op)) ∧
    Encoded 0xF0FF 0xF00A (fun op => .ldVxK (fieldX op)) ∧
    Encoded 0xF0FF 0xF015 (fun op => .ldDtVx (fieldX op)) ∧
    Encoded 0xF0FF 0xF018 (fun op => .ldStVx (fieldX op)) ∧
    Encoded 0xF0FF 0xF01E (fun op => .addIVx (fieldX op)) ∧
    Encoded 0xF0FF 0xF029 (fun op => .ldFVx (fieldX op)) ∧
    Encoded 0xF0FF 0xF033 (fun op => .ldBVx (fieldX op)) ∧
    Encoded 0xF0FF 0xF055 (fun op => .ldMemVx (fieldX op)) ∧
    Encoded 0xF0FF 0xF065 (fun op => .ldVxMem (fieldX op)) := by
  refine ⟨?_, ?_, ?_, ?_, ?_, ?_, ?_, ?_, ?_, ?_, ?_⟩ <;> intro sel op h <;> obtain ⟨h1, h2⟩ := fields_of_F0FF op _ h <;>
    simp only [decodeWord, h1, h2] <;> rfl

/-- The SHL row, whose pattern depends on `SHL_SEL` (30_encoding.md R67). -/
theorem encoded_shlVx (sel : ShlSel) (op : Word) (h : op &&& 0xF00F = sel.pattern) :
    decodeWord sel op = some (.shlVx (fieldX op) (fieldY op)) := by
  have h1 : fieldN3 op = 0x8 := (fields_of_F00F op _ h).1.trans (by cases sel <;> rfl)
  have h2 : fieldN op = sel.nibble := (fields_of_F00F op _ h).2.trans (by cases sel <;> rfl)
  cases sel <;> simp [decodeWord, h1, h2, decodeAlu, ShlSel.nibble]

end Machine

end Sys2Proof
end

