-- ==== Sys2Proof/Laws/State.lean ====
section
/-! SUPPORT. What each update of the state leaves in each field, and what the views of the state (a register, a byte of
memory, a key) read after it: one lemma per field per update, so that no proof unfolds a record update. -/

namespace Sys2Proof.Machine

@[simp] theorem State.setReg_mem (s : State) (x : Nibble) (b : Byte) : (s.setReg x b).mem = s.mem := rfl
@[simp] theorem State.setReg_v (s : State) (x : Nibble) (b : Byte) : (s.setReg x b).v = s.v.set x.toNat b x.isLt := rfl
@[simp] theorem State.setReg_i (s : State) (x : Nibble) (b : Byte) : (s.setReg x b).i = s.i := rfl
@[simp] theorem State.setReg_pc (s : State) (x : Nibble) (b : Byte) : (s.setReg x b).pc = s.pc := rfl
@[simp] theorem State.setReg_stack (s : State) (x : Nibble) (b : Byte) : (s.setReg x b).stack = s.stack := rfl
@[simp] theorem State.setReg_sp (s : State) (x : Nibble) (b : Byte) : (s.setReg x b).sp = s.sp := rfl
@[simp] theorem State.setReg_dt (s : State) (x : Nibble) (b : Byte) : (s.setReg x b).dt = s.dt := rfl
@[simp] theorem State.setReg_st (s : State) (x : Nibble) (b : Byte) : (s.setReg x b).st = s.st := rfl
@[simp] theorem State.setReg_key (s : State) (x : Nibble) (b : Byte) : (s.setReg x b).key = s.key := rfl
@[simp] theorem State.setReg_fb (s : State) (x : Nibble) (b : Byte) : (s.setReg x b).fb = s.fb := rfl
@[simp] theorem State.setReg_halt (s : State) (x : Nibble) (b : Byte) : (s.setReg x b).halt = s.halt := rfl
@[simp] theorem State.setReg_shlSel (s : State) (x : Nibble) (b : Byte) : (s.setReg x b).shlSel = s.shlSel := rfl
@[simp] theorem State.setReg_draws (s : State) (x : Nibble) (b : Byte) : (s.setReg x b).draws = s.draws := rfl
@[simp] theorem State.setReg_readByte (s : State) (x : Nibble) (b : Byte) (y : Nat) : (s.setReg x b).readByte y = s.readByte y := rfl
@[simp] theorem State.setReg_keyDown (s : State) (x : Nibble) (b : Byte) (y : Fin 16) : (s.setReg x b).keyDown y = s.keyDown y := rfl

@[simp] theorem State.setRegsFrom0_mem (s : State) (bs : List Byte) : (s.setRegsFrom0 bs).mem = s.mem := rfl
@[simp] theorem State.setRegsFrom0_v (s : State) (bs : List Byte) : (s.setRegsFrom0 bs).v = loadRegs 0 bs s.v := rfl
@[simp] theorem State.setRegsFrom0_i (s : State) (bs : List Byte) : (s.setRegsFrom0 bs).i = s.i := rfl
@[simp] theorem State.setRegsFrom0_pc (s : State) (bs : List Byte) : (s.setRegsFrom0 bs).pc = s.pc := rfl
@[simp] theorem State.setRegsFrom0_stack (s : State) (bs : List Byte) : (s.setRegsFrom0 bs).stack = s.stack := rfl
@[simp] theorem State.setRegsFrom0_sp (s : State) (bs : List Byte) : (s.setRegsFrom0 bs).sp = s.sp := rfl
@[simp] theorem State.setRegsFrom0_dt (s : State) (bs : List Byte) : (s.setRegsFrom0 bs).dt = s.dt := rfl
@[simp] theorem State.setRegsFrom0_st (s : State) (bs : List Byte) : (s.setRegsFrom0 bs).st = s.st := rfl
@[simp] theorem State.setRegsFrom0_key (s : State) (bs : List Byte) : (s.setRegsFrom0 bs).key = s.key := rfl
@[simp] theorem State.setRegsFrom0_fb (s : State) (bs : List Byte) : (s.setRegsFrom0 bs).fb = s.fb := rfl
@[simp] theorem State.setRegsFrom0_halt (s : State) (bs : List Byte) : (s.setRegsFrom0 bs).halt = s.halt := rfl
@[simp] theorem State.setRegsFrom0_shlSel (s : State) (bs : List Byte) : (s.setRegsFrom0 bs).shlSel = s.shlSel := rfl
@[simp] theorem State.setRegsFrom0_draws (s : State) (bs : List Byte) : (s.setRegsFrom0 bs).draws = s.draws := rfl
@[simp] theorem State.setRegsFrom0_readByte (s : State) (bs : List Byte) (y : Nat) : (s.setRegsFrom0 bs).readByte y = s.readByte y := rfl
@[simp] theorem State.setRegsFrom0_keyDown (s : State) (bs : List Byte) (y : Fin 16) : (s.setRegsFrom0 bs).keyDown y = s.keyDown y := rfl

@[simp] theorem State.setI_mem (s : State) (w : Word) : (s.setI w).mem = s.mem := rfl
@[simp] theorem State.setI_v (s : State) (w : Word) : (s.setI w).v = s.v := rfl
@[simp] theorem State.setI_i (s : State) (w : Word) : (s.setI w).i = w := rfl
@[simp] theorem State.setI_pc (s : State) (w : Word) : (s.setI w).pc = s.pc := rfl
@[simp] theorem State.setI_stack (s : State) (w : Word) : (s.setI w).stack = s.stack := rfl
@[simp] theorem State.setI_sp (s : State) (w : Word) : (s.setI w).sp = s.sp := rfl
@[simp] theorem State.setI_dt (s : State) (w : Word) : (s.setI w).dt = s.dt := rfl
@[simp] theorem State.setI_st (s : State) (w : Word) : (s.setI w).st = s.st := rfl
@[simp] theorem State.setI_key (s : State) (w : Word) : (s.setI w).key = s.key := rfl
@[simp] theorem State.setI_fb (s : State) (w : Word) : (s.setI w).fb = s.fb := rfl
@[simp] theorem State.setI_halt (s : State) (w : Word) : (s.setI w).halt = s.halt := rfl
@[simp] theorem State.setI_shlSel (s : State) (w : Word) : (s.setI w).shlSel = s.shlSel := rfl
@[simp] theorem State.setI_draws (s : State) (w : Word) : (s.setI w).draws = s.draws := rfl
@[simp] theorem State.setI_reg (s : State) (w : Word) (y : Nibble) : (s.setI w).reg y = s.reg y := rfl
@[simp] theorem State.setI_readByte (s : State) (w : Word) (y : Nat) : (s.setI w).readByte y = s.readByte y := rfl
@[simp] theorem State.setI_keyDown (s : State) (w : Word) (y : Fin 16) : (s.setI w).keyDown y = s.keyDown y := rfl

@[simp] theorem State.setDt_mem (s : State) (b : Byte) : (s.setDt b).mem = s.mem := rfl
@[simp] theorem State.setDt_v (s : State) (b : Byte) : (s.setDt b).v = s.v := rfl
@[simp] theorem State.setDt_i (s : State) (b : Byte) : (s.setDt b).i = s.i := rfl
@[simp] theorem State.setDt_pc (s : State) (b : Byte) : (s.setDt b).pc = s.pc := rfl
@[simp] theorem State.setDt_stack (s : State) (b : Byte) : (s.setDt b).stack = s.stack := rfl
@[simp] theorem State.setDt_sp (s : State) (b : Byte) : (s.setDt b).sp = s.sp := rfl
@[simp] theorem State.setDt_dt (s : State) (b : Byte) : (s.setDt b).dt = b := rfl
@[simp] theorem State.setDt_st (s : State) (b : Byte) : (s.setDt b).st = s.st := rfl
@[simp] theorem State.setDt_key (s : State) (b : Byte) : (s.setDt b).key = s.key := rfl
@[simp] theorem State.setDt_fb (s : State) (b : Byte) : (s.setDt b).fb = s.fb := rfl
@[simp] theorem State.setDt_halt (s : State) (b : Byte) : (s.setDt b).halt = s.halt := rfl
@[simp] theorem State.setDt_shlSel (s : State) (b : Byte) : (s.setDt b).shlSel = s.shlSel := rfl
@[simp] theorem State.setDt_draws (s : State) (b : Byte) : (s.setDt b).draws = s.draws := rfl
@[simp] theorem State.setDt_reg (s : State) (b : Byte) (y : Nibble) : (s.setDt b).reg y = s.reg y := rfl
@[simp] theorem State.setDt_readByte (s : State) (b : Byte) (y : Nat) : (s.setDt b).readByte y = s.readByte y := rfl
@[simp] theorem State.setDt_keyDown (s : State) (b : Byte) (y : Fin 16) : (s.setDt b).keyDown y = s.keyDown y := rfl

@[simp] theorem State.setSt_mem (s : State) (b : Byte) : (s.setSt b).mem = s.mem := rfl
@[simp] theorem State.setSt_v (s : State) (b : Byte) : (s.setSt b).v = s.v := rfl
@[simp] theorem State.setSt_i (s : State) (b : Byte) : (s.setSt b).i = s.i := rfl
@[simp] theorem State.setSt_pc (s : State) (b : Byte) : (s.setSt b).pc = s.pc := rfl
@[simp] theorem State.setSt_stack (s : State) (b : Byte) : (s.setSt b).stack = s.stack := rfl
@[simp] theorem State.setSt_sp (s : State) (b : Byte) : (s.setSt b).sp = s.sp := rfl
@[simp] theorem State.setSt_dt (s : State) (b : Byte) : (s.setSt b).dt = s.dt := rfl
@[simp] theorem State.setSt_st (s : State) (b : Byte) : (s.setSt b).st = b := rfl
@[simp] theorem State.setSt_key (s : State) (b : Byte) : (s.setSt b).key = s.key := rfl
@[simp] theorem State.setSt_fb (s : State) (b : Byte) : (s.setSt b).fb = s.fb := rfl
@[simp] theorem State.setSt_halt (s : State) (b : Byte) : (s.setSt b).halt = s.halt := rfl
@[simp] theorem State.setSt_shlSel (s : State) (b : Byte) : (s.setSt b).shlSel = s.shlSel := rfl
@[simp] theorem State.setSt_draws (s : State) (b : Byte) : (s.setSt b).draws = s.draws := rfl
@[simp] theorem State.setSt_reg (s : State) (b : Byte) (y : Nibble) : (s.setSt b).reg y = s.reg y := rfl
@[simp] theorem State.setSt_readByte (s : State) (b : Byte) (y : Nat) : (s.setSt b).readByte y = s.readByte y := rfl
@[simp] theorem State.setSt_keyDown (s : State) (b : Byte) (y : Fin 16) : (s.setSt b).keyDown y = s.keyDown y := rfl

@[simp] theorem State.setFb_mem (s : State) (fb : Framebuffer) : (s.setFb fb).mem = s.mem := rfl
@[simp] theorem State.setFb_v (s : State) (fb : Framebuffer) : (s.setFb fb).v = s.v := rfl
@[simp] theorem State.setFb_i (s : State) (fb : Framebuffer) : (s.setFb fb).i = s.i := rfl
@[simp] theorem State.setFb_pc (s : State) (fb : Framebuffer) : (s.setFb fb).pc = s.pc := rfl
@[simp] theorem State.setFb_stack (s : State) (fb : Framebuffer) : (s.setFb fb).stack = s.stack := rfl
@[simp] theorem State.setFb_sp (s : State) (fb : Framebuffer) : (s.setFb fb).sp = s.sp := rfl
@[simp] theorem State.setFb_dt (s : State) (fb : Framebuffer) : (s.setFb fb).dt = s.dt := rfl
@[simp] theorem State.setFb_st (s : State) (fb : Framebuffer) : (s.setFb fb).st = s.st := rfl
@[simp] theorem State.setFb_key (s : State) (fb : Framebuffer) : (s.setFb fb).key = s.key := rfl
@[simp] theorem State.setFb_fb (s : State) (fb : Framebuffer) : (s.setFb fb).fb = fb := rfl
@[simp] theorem State.setFb_halt (s : State) (fb : Framebuffer) : (s.setFb fb).halt = s.halt := rfl
@[simp] theorem State.setFb_shlSel (s : State) (fb : Framebuffer) : (s.setFb fb).shlSel = s.shlSel := rfl
@[simp] theorem State.setFb_draws (s : State) (fb : Framebuffer) : (s.setFb fb).draws = s.draws := rfl
@[simp] theorem State.setFb_reg (s : State) (fb : Framebuffer) (y : Nibble) : (s.setFb fb).reg y = s.reg y := rfl
@[simp] theorem State.setFb_readByte (s : State) (fb : Framebuffer) (y : Nat) : (s.setFb fb).readByte y = s.readByte y := rfl
@[simp] theorem State.setFb_keyDown (s : State) (fb : Framebuffer) (y : Fin 16) : (s.setFb fb).keyDown y = s.keyDown y := rfl

@[simp] theorem State.setPc_mem (s : State) (w : Word) : (s.setPc w).mem = s.mem := rfl
@[simp] theorem State.setPc_v (s : State) (w : Word) : (s.setPc w).v = s.v := rfl
@[simp] theorem State.setPc_i (s : State) (w : Word) : (s.setPc w).i = s.i := rfl
@[simp] theorem State.setPc_pc (s : State) (w : Word) : (s.setPc w).pc = w := rfl
@[simp] theorem State.setPc_stack (s : State) (w : Word) : (s.setPc w).stack = s.stack := rfl
@[simp] theorem State.setPc_sp (s : State) (w : Word) : (s.setPc w).sp = s.sp := rfl
@[simp] theorem State.setPc_dt (s : State) (w : Word) : (s.setPc w).dt = s.dt := rfl
@[simp] theorem State.setPc_st (s : State) (w : Word) : (s.setPc w).st = s.st := rfl
@[simp] theorem State.setPc_key (s : State) (w : Word) : (s.setPc w).key = s.key := rfl
@[simp] theorem State.setPc_fb (s : State) (w : Word) : (s.setPc w).fb = s.fb := rfl
@[simp] theorem State.setPc_halt (s : State) (w : Word) : (s.setPc w).halt = s.halt := rfl
@[simp] theorem State.setPc_shlSel (s : State) (w : Word) : (s.setPc w).shlSel = s.shlSel := rfl
@[simp] theorem State.setPc_draws (s : State) (w : Word) : (s.setPc w).draws = s.draws := rfl
@[simp] theorem State.setPc_reg (s : State) (w : Word) (y : Nibble) : (s.setPc w).reg y = s.reg y := rfl
@[simp] theorem State.setPc_readByte (s : State) (w : Word) (y : Nat) : (s.setPc w).readByte y = s.readByte y := rfl
@[simp] theorem State.setPc_keyDown (s : State) (w : Word) (y : Fin 16) : (s.setPc w).keyDown y = s.keyDown y := rfl

@[simp] theorem State.advance_mem (s : State) : (s.advance).mem = s.mem := rfl
@[simp] theorem State.advance_v (s : State) : (s.advance).v = s.v := rfl
@[simp] theorem State.advance_i (s : State) : (s.advance).i = s.i := rfl
@[simp] theorem State.advance_pc (s : State) : (s.advance).pc = s.pc + 2 := rfl
@[simp] theorem State.advance_stack (s : State) : (s.advance).stack = s.stack := rfl
@[simp] theorem State.advance_sp (s : State) : (s.advance).sp = s.sp := rfl
@[simp] theorem State.advance_dt (s : State) : (s.advance).dt = s.dt := rfl
@[simp] theorem State.advance_st (s : State) : (s.advance).st = s.st := rfl
@[simp] theorem State.advance_key (s : State) : (s.advance).key = s.key := rfl
@[simp] theorem State.advance_fb (s : State) : (s.advance).fb = s.fb := rfl
@[simp] theorem State.advance_halt (s : State) : (s.advance).halt = s.halt := rfl
@[simp] theorem State.advance_shlSel (s : State) : (s.advance).shlSel = s.shlSel := rfl
@[simp] theorem State.advance_draws (s : State) : (s.advance).draws = s.draws := rfl
@[simp] theorem State.advance_reg (s : State) (y : Nibble) : (s.advance).reg y = s.reg y := rfl
@[simp] theorem State.advance_readByte (s : State) (y : Nat) : (s.advance).readByte y = s.readByte y := rfl
@[simp] theorem State.advance_keyDown (s : State) (y : Fin 16) : (s.advance).keyDown y = s.keyDown y := rfl

@[simp] theorem State.storeBytes_mem (s : State) (a : Nat) (bs : List Byte) : (s.storeBytes a bs).mem = Memory.writeBytes s.mem a bs := rfl
@[simp] theorem State.storeBytes_v (s : State) (a : Nat) (bs : List Byte) : (s.storeBytes a bs).v = s.v := rfl
@[simp] theorem State.storeBytes_i (s : State) (a : Nat) (bs : List Byte) : (s.storeBytes a bs).i = s.i := rfl
@[simp] theorem State.storeBytes_pc (s : State) (a : Nat) (bs : List Byte) : (s.storeBytes a bs).pc = s.pc := rfl
@[simp] theorem State.storeBytes_stack (s : State) (a : Nat) (bs : List Byte) : (s.storeBytes a bs).stack = s.stack := rfl
@[simp] theorem State.storeBytes_sp (s : State) (a : Nat) (bs : List Byte) : (s.storeBytes a bs).sp = s.sp := rfl
@[simp] theorem State.storeBytes_dt (s : State) (a : Nat) (bs : List Byte) : (s.storeBytes a bs).dt = s.dt := rfl
@[simp] theorem State.storeBytes_st (s : State) (a : Nat) (bs : List Byte) : (s.storeBytes a bs).st = s.st := rfl
@[simp] theorem State.storeBytes_key (s : State) (a : Nat) (bs : List Byte) : (s.storeBytes a bs).key = s.key := rfl
@[simp] theorem State.storeBytes_fb (s : State) (a : Nat) (bs : List Byte) : (s.storeBytes a bs).fb = s.fb := rfl
@[simp] theorem State.storeBytes_halt (s : State) (a : Nat) (bs : List Byte) : (s.storeBytes a bs).halt = s.halt := rfl
@[simp] theorem State.storeBytes_shlSel (s : State) (a : Nat) (bs : List Byte) : (s.storeBytes a bs).shlSel = s.shlSel := rfl
@[simp] theorem State.storeBytes_draws (s : State) (a : Nat) (bs : List Byte) : (s.storeBytes a bs).draws = s.draws := rfl
@[simp] theorem State.storeBytes_reg (s : State) (a : Nat) (bs : List Byte) (y : Nibble) : (s.storeBytes a bs).reg y = s.reg y := rfl
@[simp] theorem State.storeBytes_keyDown (s : State) (a : Nat) (bs : List Byte) (y : Fin 16) : (s.storeBytes a bs).keyDown y = s.keyDown y := rfl

@[simp] theorem State.countDraw_mem (s : State) : (s.countDraw).mem = s.mem := rfl
@[simp] theorem State.countDraw_v (s : State) : (s.countDraw).v = s.v := rfl
@[simp] theorem State.countDraw_i (s : State) : (s.countDraw).i = s.i := rfl
@[simp] theorem State.countDraw_pc (s : State) : (s.countDraw).pc = s.pc := rfl
@[simp] theorem State.countDraw_stack (s : State) : (s.countDraw).stack = s.stack := rfl
@[simp] theorem State.countDraw_sp (s : State) : (s.countDraw).sp = s.sp := rfl
@[simp] theorem State.countDraw_dt (s : State) : (s.countDraw).dt = s.dt := rfl
@[simp] theorem State.countDraw_st (s : State) : (s.countDraw).st = s.st := rfl
@[simp] theorem State.countDraw_key (s : State) : (s.countDraw).key = s.key := rfl
@[simp] theorem State.countDraw_fb (s : State) : (s.countDraw).fb = s.fb := rfl
@[simp] theorem State.countDraw_halt (s : State) : (s.countDraw).halt = s.halt := rfl
@[simp] theorem State.countDraw_shlSel (s : State) : (s.countDraw).shlSel = s.shlSel := rfl
@[simp] theorem State.countDraw_draws (s : State) : (s.countDraw).draws = s.draws + 1 := rfl
@[simp] theorem State.countDraw_reg (s : State) (y : Nibble) : (s.countDraw).reg y = s.reg y := rfl
@[simp] theorem State.countDraw_readByte (s : State) (y : Nat) : (s.countDraw).readByte y = s.readByte y := rfl
@[simp] theorem State.countDraw_keyDown (s : State) (y : Fin 16) : (s.countDraw).keyDown y = s.keyDown y := rfl

@[simp] theorem raise_mem (s : State) (f : Fatal) : (raise f s).mem = s.mem := rfl
@[simp] theorem raise_v (s : State) (f : Fatal) : (raise f s).v = s.v := rfl
@[simp] theorem raise_i (s : State) (f : Fatal) : (raise f s).i = s.i := rfl
@[simp] theorem raise_pc (s : State) (f : Fatal) : (raise f s).pc = s.pc := rfl
@[simp] theorem raise_stack (s : State) (f : Fatal) : (raise f s).stack = s.stack := rfl
@[simp] theorem raise_sp (s : State) (f : Fatal) : (raise f s).sp = s.sp := rfl
@[simp] theorem raise_dt (s : State) (f : Fatal) : (raise f s).dt = s.dt := rfl
@[simp] theorem raise_st (s : State) (f : Fatal) : (raise f s).st = s.st := rfl
@[simp] theorem raise_key (s : State) (f : Fatal) : (raise f s).key = s.key := rfl
@[simp] theorem raise_fb (s : State) (f : Fatal) : (raise f s).fb = s.fb := rfl
@[simp] theorem raise_halt (s : State) (f : Fatal) : (raise f s).halt = f.cause := rfl
@[simp] theorem raise_shlSel (s : State) (f : Fatal) : (raise f s).shlSel = s.shlSel := rfl
@[simp] theorem raise_draws (s : State) (f : Fatal) : (raise f s).draws = s.draws := rfl
@[simp] theorem raise_reg (s : State) (f : Fatal) (y : Nibble) : (raise f s).reg y = s.reg y := rfl
@[simp] theorem raise_readByte (s : State) (f : Fatal) (y : Nat) : (raise f s).readByte y = s.readByte y := rfl
@[simp] theorem raise_keyDown (s : State) (f : Fatal) (y : Fin 16) : (raise f s).keyDown y = s.keyDown y := rfl

@[simp] theorem State.pushPc_mem (s : State) : (s.pushPc).mem = s.mem := by unfold State.pushPc; split <;> rfl
@[simp] theorem State.pushPc_v (s : State) : (s.pushPc).v = s.v := by unfold State.pushPc; split <;> rfl
@[simp] theorem State.pushPc_i (s : State) : (s.pushPc).i = s.i := by unfold State.pushPc; split <;> rfl
@[simp] theorem State.pushPc_pc (s : State) : (s.pushPc).pc = s.pc := by unfold State.pushPc; split <;> rfl
@[simp] theorem State.pushPc_dt (s : State) : (s.pushPc).dt = s.dt := by unfold State.pushPc; split <;> rfl
@[simp] theorem State.pushPc_st (s : State) : (s.pushPc).st = s.st := by unfold State.pushPc; split <;> rfl
@[simp] theorem State.pushPc_key (s : State) : (s.pushPc).key = s.key := by unfold State.pushPc; split <;> rfl
@[simp] theorem State.pushPc_fb (s : State) : (s.pushPc).fb = s.fb := by unfold State.pushPc; split <;> rfl
@[simp] theorem State.pushPc_halt (s : State) : (s.pushPc).halt = s.halt := by unfold State.pushPc; split <;> rfl
@[simp] theorem State.pushPc_shlSel (s : State) : (s.pushPc).shlSel = s.shlSel := by unfold State.pushPc; split <;> rfl
@[simp] theorem State.pushPc_draws (s : State) : (s.pushPc).draws = s.draws := by unfold State.pushPc; split <;> rfl
@[simp] theorem State.pushPc_reg (s : State) (y : Nibble) : (s.pushPc).reg y = s.reg y := by unfold State.pushPc; split <;> rfl
@[simp] theorem State.pushPc_readByte (s : State) (y : Nat) : (s.pushPc).readByte y = s.readByte y := by unfold State.pushPc; split <;> rfl
@[simp] theorem State.pushPc_keyDown (s : State) (y : Fin 16) : (s.pushPc).keyDown y = s.keyDown y := by unfold State.pushPc; split <;> rfl

@[simp] theorem State.popPc_mem (s : State) : (s.popPc).mem = s.mem := by unfold State.popPc; split <;> rfl
@[simp] theorem State.popPc_v (s : State) : (s.popPc).v = s.v := by unfold State.popPc; split <;> rfl
@[simp] theorem State.popPc_i (s : State) : (s.popPc).i = s.i := by unfold State.popPc; split <;> rfl
@[simp] theorem State.popPc_stack (s : State) : (s.popPc).stack = s.stack := by unfold State.popPc; split <;> rfl
@[simp] theorem State.popPc_dt (s : State) : (s.popPc).dt = s.dt := by unfold State.popPc; split <;> rfl
@[simp] theorem State.popPc_st (s : State) : (s.popPc).st = s.st := by unfold State.popPc; split <;> rfl
@[simp] theorem State.popPc_key (s : State) : (s.popPc).key = s.key := by unfold State.popPc; split <;> rfl
@[simp] theorem State.popPc_fb (s : State) : (s.popPc).fb = s.fb := by unfold State.popPc; split <;> rfl
@[simp] theorem State.popPc_halt (s : State) : (s.popPc).halt = s.halt := by unfold State.popPc; split <;> rfl
@[simp] theorem State.popPc_shlSel (s : State) : (s.popPc).shlSel = s.shlSel := by unfold State.popPc; split <;> rfl
@[simp] theorem State.popPc_draws (s : State) : (s.popPc).draws = s.draws := by unfold State.popPc; split <;> rfl
@[simp] theorem State.popPc_reg (s : State) (y : Nibble) : (s.popPc).reg y = s.reg y := by unfold State.popPc; split <;> rfl
@[simp] theorem State.popPc_readByte (s : State) (y : Nat) : (s.popPc).readByte y = s.readByte y := by unfold State.popPc; split <;> rfl
@[simp] theorem State.popPc_keyDown (s : State) (y : Fin 16) : (s.popPc).keyDown y = s.keyDown y := by unfold State.popPc; split <;> rfl

@[simp] theorem State.skipIf_mem (s : State) (c : Bool) : (s.skipIf c).mem = s.mem := by unfold State.skipIf; split <;> rfl
@[simp] theorem State.skipIf_v (s : State) (c : Bool) : (s.skipIf c).v = s.v := by unfold State.skipIf; split <;> rfl
@[simp] theorem State.skipIf_i (s : State) (c : Bool) : (s.skipIf c).i = s.i := by unfold State.skipIf; split <;> rfl
@[simp] theorem State.skipIf_pc (s : State) (c : Bool) : (s.skipIf c).pc = if c then s.pc + 2 else s.pc := by unfold State.skipIf; split <;> simp_all [State.advance, State.setPc]
@[simp] theorem State.skipIf_stack (s : State) (c : Bool) : (s.skipIf c).stack = s.stack := by unfold State.skipIf; split <;> rfl
@[simp] theorem State.skipIf_sp (s : State) (c : Bool) : (s.skipIf c).sp = s.sp := by unfold State.skipIf; split <;> rfl
@[simp] theorem State.skipIf_dt (s : State) (c : Bool) : (s.skipIf c).dt = s.dt := by unfold State.skipIf; split <;> rfl
@[simp] theorem State.skipIf_st (s : State) (c : Bool) : (s.skipIf c).st = s.st := by unfold State.skipIf; split <;> rfl
@[simp] theorem State.skipIf_key (s : State) (c : Bool) : (s.skipIf c).key = s.key := by unfold State.skipIf; split <;> rfl
@[simp] theorem State.skipIf_fb (s : State) (c : Bool) : (s.skipIf c).fb = s.fb := by unfold State.skipIf; split <;> rfl
@[simp] theorem State.skipIf_halt (s : State) (c : Bool) : (s.skipIf c).halt = s.halt := by unfold State.skipIf; split <;> rfl
@[simp] theorem State.skipIf_shlSel (s : State) (c : Bool) : (s.skipIf c).shlSel = s.shlSel := by unfold State.skipIf; split <;> rfl
@[simp] theorem State.skipIf_draws (s : State) (c : Bool) : (s.skipIf c).draws = s.draws := by unfold State.skipIf; split <;> rfl
@[simp] theorem State.skipIf_reg (s : State) (c : Bool) (y : Nibble) : (s.skipIf c).reg y = s.reg y := by unfold State.skipIf; split <;> rfl
@[simp] theorem State.skipIf_readByte (s : State) (c : Bool) (y : Nat) : (s.skipIf c).readByte y = s.readByte y := by unfold State.skipIf; split <;> rfl
@[simp] theorem State.skipIf_keyDown (s : State) (c : Bool) (y : Fin 16) : (s.skipIf c).keyDown y = s.keyDown y := by unfold State.skipIf; split <;> rfl

end Sys2Proof.Machine
end

