-- ==== Sys2Proof/Laws/Memory.lean ====
section
/-! SUPPORT. The laws of memory: a read after a write, a write leaves every other byte alone, and every operation keeps
the canonical form. They hold of every list of cells, canonical or not, but for the last. -/

namespace Sys2Proof.Machine

@[simp] theorem memory_read_nil (a : Nat) : Memory.read [] a = 0 := rfl

theorem memory_read_erase (m : Memory) (a b : Nat) :
    Memory.read (Memory.erase m a) b = if b = a then 0 else Memory.read m b := by
  induction m with
  | nil => simp [Memory.erase]
  | cons c m ih => grind [Memory.erase, Memory.read]

theorem memory_read_erase_self (m : Memory) (a : Nat) : Memory.read (Memory.erase m a) a = 0 := by
  simp [memory_read_erase]

theorem memory_read_insert (m : Memory) (a b : Nat) (v : Byte) (h : ∀ c ∈ m, c.1 ≠ a) :
    Memory.read (Memory.insert a v m) b = if b = a then v else Memory.read m b := by
  induction m with
  | nil => grind [Memory.insert, Memory.read]
  | cons c m ih => grind [Memory.insert, Memory.read]

theorem memory_erase_ne (m : Memory) (a : Nat) : ∀ c ∈ Memory.erase m a, c.1 ≠ a := by
  induction m with
  | nil => simp [Memory.erase]
  | cons c m ih => grind [Memory.erase]

/-- A byte written is read back, and every other byte reads as before (20_memory.md R43, R50). -/
theorem memory_read_write (m : Memory) (a b : Nat) (v : Byte) :
    Memory.read (Memory.write m a v) b = if b = a then v else Memory.read m b := by
  unfold Memory.write
  split
  · next h => simp [memory_read_erase, h]
  · rw [memory_read_insert _ _ _ _ (memory_erase_ne m a), memory_read_erase]
    split <;> simp_all

/-- What ascending writes leave at an address: the byte of the list that fell on it, or what was there. -/
theorem memory_read_writeBytes (m : Memory) (a b : Nat) (bs : List Byte) :
    Memory.read (Memory.writeBytes m a bs) b =
      if a ≤ b ∧ b < a + bs.length then bs.getD (b - a) 0 else Memory.read m b := by
  induction bs generalizing m a with
  | nil => simp [Memory.writeBytes]
  | cons v bs ih =>
    rw [Memory.writeBytes, ih, memory_read_write]
    by_cases h : b = a
    · subst h; simp
    · by_cases h2 : a + 1 ≤ b ∧ b < a + 1 + bs.length
      · obtain ⟨k, rfl⟩ : ∃ k, b = a + 1 + k := ⟨b - (a + 1), by omega⟩
        have h3 : a ≤ a + 1 + k ∧ a + 1 + k < a + (v :: bs).length := by simp; omega
        rw [if_pos h2, if_pos h3, show a + 1 + k - (a + 1) = k by omega, show a + 1 + k - a = k + 1 by omega]
        simp
      · have h3 : ¬ (a ≤ b ∧ b < a + (v :: bs).length) := by simp; omega
        rw [if_neg h2, if_neg h3, if_neg h]

theorem readByte_storeBytes (s : State) (a b : Nat) (bs : List Byte) :
    (s.storeBytes a bs).readByte b =
      if a ≤ b ∧ b < a + bs.length then bs.getD (b - a) 0 else s.readByte b :=
  memory_read_writeBytes s.mem a b bs

@[simp] theorem memory_readBytes_length (m : Memory) (a n : Nat) : (Memory.readBytes m a n).length = n := by
  induction n generalizing a with
  | zero => rfl
  | succ n ih => simp [Memory.readBytes, ih]

/-- The `j`-th byte of an ascending read is the byte at `a + j`. -/
theorem memory_readBytes_getElem (m : Memory) (a n j : Nat) (h : j < (Memory.readBytes m a n).length) :
    (Memory.readBytes m a n)[j] = Memory.read m (a + j) := by
  induction n generalizing a j with
  | zero => simp [Memory.readBytes] at h
  | succ n ih =>
    cases j with
    | zero => simp [Memory.readBytes]
    | succ j =>
      simp only [Memory.readBytes, List.getElem_cons_succ]
      rw [ih]
      congr 1
      omega

/-! ### The canonical form -/

theorem memory_wfFrom_cons (lo : Nat) (c : Host.Cell) (m : Memory) :
    Memory.wfFrom lo (c :: m) = true ↔
      lo ≤ c.1 ∧ c.1 < Config.memSize ∧ c.2 ≠ 0 ∧ Memory.wfFrom (c.1 + 1) m = true := by
  simp only [Memory.wfFrom, Bool.and_eq_true, decide_eq_true_eq, bne_iff_ne, and_assoc]

theorem memory_wfFrom_mono {lo lo' : Nat} (h : lo' ≤ lo) (m : Memory) (hm : Memory.wfFrom lo m = true) :
    Memory.wfFrom lo' m = true := by
  cases m with
  | nil => rfl
  | cons c m =>
    rw [memory_wfFrom_cons] at hm ⊢
    exact ⟨by omega, hm.2⟩

theorem memory_wfFrom_erase (m : Memory) (a lo : Nat) (hm : Memory.wfFrom lo m = true) :
    Memory.wfFrom lo (Memory.erase m a) = true := by
  induction m generalizing lo with
  | nil => rfl
  | cons c m ih =>
    obtain ⟨h1, h2, h3, h4⟩ := (memory_wfFrom_cons _ _ _).1 hm
    unfold Memory.erase
    split
    · exact memory_wfFrom_mono (by omega) _ (ih _ h4)
    · exact (memory_wfFrom_cons _ _ _).2 ⟨h1, h2, h3, ih _ h4⟩

theorem memory_wfFrom_insert (m : Memory) (a lo : Nat) (v : Byte) (hm : Memory.wfFrom lo m = true)
    (hlo : lo ≤ a) (ha : a < Config.memSize) (hv : v ≠ 0) (hne : ∀ c ∈ m, c.1 ≠ a) :
    Memory.wfFrom lo (Memory.insert a v m) = true := by
  induction m generalizing lo with
  | nil => exact (memory_wfFrom_cons _ _ _).2 ⟨hlo, ha, hv, rfl⟩
  | cons c m ih =>
    obtain ⟨h1, h2, h3, h4⟩ := (memory_wfFrom_cons _ _ _).1 hm
    have hc : c.1 ≠ a := hne c (by simp)
    unfold Memory.insert
    split
    · exact (memory_wfFrom_cons _ _ _).2 ⟨hlo, ha, hv, (memory_wfFrom_cons _ _ _).2 ⟨by simp; omega, h2, h3, h4⟩⟩
    · exact (memory_wfFrom_cons _ _ _).2
        ⟨h1, h2, h3, ih (c.1 + 1) h4 (by omega) fun d hd => hne d (by simp [hd])⟩

/-- A write inside the address space keeps the canonical form. -/
theorem memory_wf_write (m : Memory) (a : Nat) (v : Byte) (hm : Memory.wf m = true) (ha : a < Config.memSize) :
    Memory.wf (Memory.write m a v) = true := by
  unfold Memory.wf Memory.write at *
  split
  · exact memory_wfFrom_erase m a 0 hm
  · next h =>
    exact memory_wfFrom_insert _ a 0 v (memory_wfFrom_erase m a 0 hm) (by omega) ha h (memory_erase_ne m a)

/-- Ascending writes inside the address space keep the canonical form. -/
theorem memory_wf_writeBytes (m : Memory) (a : Nat) (bs : List Byte) (hm : Memory.wf m = true)
    (ha : a + bs.length ≤ Config.memSize) : Memory.wf (Memory.writeBytes m a bs) = true := by
  induction bs generalizing m a with
  | nil => exact hm
  | cons b bs ih =>
    simp only [List.length_cons] at ha
    exact ih _ _ (memory_wf_write m a b hm (by omega)) (by omega)

/-- Memory after RESET is canonical. -/
theorem memory_wf_reset : Memory.wf State.reset.mem = true := rfl

end Sys2Proof.Machine
end

