-- ==== Sys2Proof/Laws/Registers.lean ====
section
/-! SUPPORT. What a register reads after a register write, after result and flag, and after a load of several registers;
what the list of stored registers holds; what a push and a pop do; what an iterated skip leaves. -/

namespace Sys2Proof.Machine

/-- A register written is read back, and every other register reads as before (10_state.md R23). -/
theorem reg_setReg (s : State) (x y : Nibble) (b : Byte) :
    (s.setReg x b).reg y = if y = x then b else s.reg y := by
  unfold State.reg State.setReg
  by_cases h : y = x
  · subst h; simp
  · have hn : x.toNat ≠ y.toNat := fun e => h (BitVec.eq_of_toNat_eq e.symm)
    simp [hn, h]

@[simp] theorem reg_setReg_self (s : State) (x : Nibble) (b : Byte) : (s.setReg x b).reg x = b := by
  simp [reg_setReg]

/-- After result and flag: VF holds the flag, whatever `x` is; `V[x]` the result unless it is VF; the rest is as
before (42_load_alu.md R102). -/
theorem reg_setRegFlag (s : State) (x y : Nibble) (r : Byte) (f : Bool) :
    (s.setRegFlag x r f).reg y = if y = vf then flagByte f else if y = x then r else s.reg y := by
  simp [State.setRegFlag, reg_setReg]

/-- The result is in `V[x]` when `x` is not VF. -/
theorem reg_setRegFlag_dest (s : State) (x : Nibble) (r : Byte) (f : Bool) (h : x ≠ 0xF) :
    (s.setRegFlag x r f).reg x = r := by
  rw [reg_setRegFlag, if_neg (show ¬ x = vf from h), if_pos rfl]

/-- The flag is in VF whatever `x` is. -/
theorem reg_setRegFlag_vf (s : State) (x : Nibble) (r : Byte) (f : Bool) :
    (s.setRegFlag x r f).reg 0xF = flagByte f := by
  rw [reg_setRegFlag, if_pos (show (0xF : Nibble) = vf from rfl)]

theorem setRegFlag_eq (s : State) (x : Nibble) (r : Byte) (f : Bool) :
    s.setRegFlag x r f = (s.setReg x r).setReg vf (flagByte f) := rfl

theorem flagByte_toNat (f : Bool) : (flagByte f).toNat = if f then 1 else 0 := by cases f <;> rfl

theorem loadRegs_getElem (j k : Nat) (bs : List Byte) (v : Vector Byte 16) (hk : k < 16) :
    (loadRegs j bs v)[k] = if j ≤ k ∧ k < j + bs.length then bs.getD (k - j) 0 else v[k] := by
  induction bs generalizing j v with
  | nil => simp [loadRegs]
  | cons b bs ih =>
    rw [loadRegs, ih]
    by_cases h : k = j
    · subst h; simp
    · by_cases h2 : j + 1 ≤ k ∧ k < j + 1 + bs.length
      · obtain ⟨m, rfl⟩ : ∃ m, k = j + 1 + m := ⟨k - (j + 1), by omega⟩
        have h3 : j ≤ j + 1 + m ∧ j + 1 + m < j + (b :: bs).length := by simp; omega
        rw [if_pos h2, if_pos h3, show j + 1 + m - (j + 1) = m by omega, show j + 1 + m - j = m + 1 by omega]
        simp
      · have h3 : ¬ (j ≤ k ∧ k < j + (b :: bs).length) := by simp; omega
        have h4 : ¬ j = k := fun e => h e.symm
        rw [if_neg h2, if_neg h3]
        simp [h4]

/-- After a load of several registers: the first ones hold the list's bytes in order, the others are as before. -/
theorem reg_setRegsFrom0 (s : State) (bs : List Byte) (y : Nibble) :
    (s.setRegsFrom0 bs).reg y = if y.toNat < bs.length then bs.getD y.toNat 0 else s.reg y := by
  unfold State.reg State.setRegsFrom0
  simp [loadRegs_getElem]

@[simp] theorem regsTo_length (s : State) (x : Nibble) : (s.regsTo x).length = x.toNat + 1 := by
  have := x.isLt
  simp [State.regsTo]; omega

/-- The `j`-th stored byte is `V[j]`. -/
theorem regsTo_getD (s : State) (x : Nibble) (j : Nibble) (h : j.toNat ≤ x.toNat) :
    (s.regsTo x).getD j.toNat 0 = s.reg j := by
  have := x.isLt
  have := j.isLt
  simp only [State.regsTo, State.reg, List.getD_eq_getElem?_getD]
  rw [List.getElem?_take]
  simp only [show j.toNat < x.toNat + 1 by omega, if_true]
  rw [List.getElem?_eq_getElem (by simp; omega)]
  simp

/-! ### The stack -/

/-- A push below capacity: the entry at the old `SP` is `PC`, the others are as before, `SP` is one more. -/
theorem pushPc_stack (s : State) (h : s.sp.val < 16) (j : Nat) (hj : j < 16) :
    s.pushPc.stack[j] = if j = s.sp.val then s.pc else s.stack[j] := by
  unfold State.pushPc
  simp only [h, dif_pos]
  by_cases e : j = s.sp.val
  · subst e; simp
  · have e' : ¬ s.sp.val = j := fun x => e x.symm
    simp [e, e']

theorem pushPc_sp (s : State) (h : s.sp.val < 16) : s.pushPc.sp.val = s.sp.val + 1 := by
  simp [State.pushPc, h]

theorem popPc_sp (s : State) : s.popPc.sp.val = s.sp.val - 1 := by
  unfold State.popPc
  split
  · rfl
  · omega

theorem popPc_pc (s : State) (h : 0 < s.sp.val) : s.popPc.pc = s.stack[s.sp.val - 1]'(by omega) := by
  simp [State.popPc, h]

end Sys2Proof.Machine
end

