-- ==== Sys2Proof/Laws/Exec.lean ====
section
/-! SUPPORT. Once for each shared operation, everything it can do: the checks, taking a fatal condition, an
instruction (its check, and the effect it has when the check passes), a step, a transaction. -/

namespace Sys2Proof.Machine

/-! ### Checks and fatal conditions -/

/-- The range check passes exactly when no byte or only bytes inside memory are touched (20_memory.md R44). -/
theorem rangeCheck_eq_none_iff (base n : Nat) : rangeCheck base n = none ↔ n = 0 ∨ base + n - 1 ≤ 0xFFF := by
  unfold rangeCheck
  split
  · simp [*]
  · split
    · simp only [reduceCtorEq, false_iff]; omega
    · simp only [true_iff]; omega

/-- When the range check fails, it names the highest address the access would touch (60_exceptions.md R176). -/
theorem rangeCheck_eq_some_iff (base n : Nat) (f : Fatal) :
    rangeCheck base n = some f ↔ n ≠ 0 ∧ 0xFFF < base + n - 1 ∧ f = .memRange (base + n - 1) := by
  unfold rangeCheck
  split
  · simp [*]
  · split
    · next h1 h2 => simp only [Option.some.injEq, h1, ne_eq, not_false_eq_true, true_and]; grind
    · next h1 h2 => simp only [reduceCtorEq, false_iff]; omega

theorem keyCheck_eq_none_iff (k : Byte) : keyCheck k = none ↔ k.toNat ≤ 15 := by
  unfold keyCheck
  split <;> simp <;> omega

theorem keyCheck_eq_some_iff (k : Byte) (f : Fatal) : keyCheck k = some f ↔ 15 < k.toNat ∧ f = .keyIndex k := by
  unfold keyCheck
  split <;> simp <;> grind

theorem fetchCheck_eq_none_iff (s : State) : fetchCheck s = none ↔ s.pc.toNat ≤ 0xFFE := by
  unfold fetchCheck
  split <;> simp <;> omega

theorem fetchCheck_eq_some_iff (s : State) (f : Fatal) :
    fetchCheck s = some f ↔ 0xFFE < s.pc.toNat ∧ f = .fetchRange s.pc.toNat := by
  unfold fetchCheck
  split <;> simp <;> grind

/-- No fatal condition has the cause that stands for a running machine. -/
theorem fatal_cause_ne_running (f : Fatal) : f.cause ≠ .running := by cases f <;> simp [Fatal.cause]

/-- What a guarded transaction can do: its effect, or its fatal condition and nothing else (60_exceptions.md R173). -/
theorem guarded_eq_next_iff (c : Option Fatal) (s e t : State) :
    guarded c s e = .next t ↔ (c = none ∧ t = e) ∨ ∃ f, c = some f ∧ t = raise f s := by
  cases c <;> simp [guarded, eq_comm]

/-! ### An instruction -/

/-- The effect of an instruction when its check passes. -/
def instrEffect (i : Instr) (s : State) : State :=
  match i with
  | .cls => s.setFb fbClear
  | .ret => s.popPc
  | .jp nnn => s.setPc (zextAddr nnn)
  | .call nnn => s.pushPc.setPc (zextAddr nnn)
  | .seVxKk x kk => s.skipIf (s.reg x == kk)
  | .sneVxKk x kk => s.skipIf (s.reg x != kk)
  | .seVxVy x y => s.skipIf (s.reg x == s.reg y)
  | .sneVxVy x y => s.skipIf (s.reg x != s.reg y)
  | .ldVxKk x kk => s.setReg x kk
  | .addVxKk x kk => s.setReg x (s.reg x + kk)
  | .ldVxVy x y => s.setReg x (s.reg y)
  | .orVxVy x y => s.setReg x (s.reg x ||| s.reg y)
  | .andVxVy x y => s.setReg x (s.reg x &&& s.reg y)
  | .xorVxVy x y => s.setReg x (s.reg x ^^^ s.reg y)
  | .addVxVy x y => s.setRegFlag x (s.reg x + s.reg y) (addFlag (s.reg x) (s.reg y))
  | .subVxVy x y => s.setRegFlag x (s.reg x - s.reg y) (subFlag (s.reg x) (s.reg y))
  | .shrVx x _ => s.setRegFlag x (s.reg x >>> 1) (shrFlag (s.reg x))
  | .subnVxVy x y => s.setRegFlag x (s.reg y - s.reg x) (subFlag (s.reg y) (s.reg x))
  | .shlVx x _ => s.setRegFlag x (s.reg x <<< 1) (shlFlag (s.reg x))
  | .ldINnn nnn => s.setI (zextAddr nnn)
  | .jpV0Nnn nnn => s.setPc (zextByte (s.reg 0) + zextAddr nnn)
  | .rndVxKk x kk => s.countDraw.setReg x (s.drawnByte &&& kk)
  | .drwVxVyN x y n => drwEffect x y n s
  | .skpVx x => s.skipIf (s.keyDown (keyOf (s.reg x)))
  | .sknpVx x => s.skipIf (!s.keyDown (keyOf (s.reg x)))
  | .ldVxDt x => s.setReg x s.dt
  | .ldVxK x =>
    match s.lowestKey with
    | some k => s.setReg x (BitVec.ofNat 8 k.val)
    | none => s.setPc (s.pc - 2)
  | .ldDtVx x => s.setDt (s.reg x)
  | .ldStVx x => s.setSt (s.reg x)
  | .addIVx x => s.setI (s.i + zextByte (s.reg x))
  | .ldFVx x => s.setI (glyphAddress (s.reg x))
  | .ldBVx x => s.storeBytes s.base (bcdDigits (s.reg x))
  | .ldMemVx x => s.storeBytes s.base (s.regsTo x)
  | .ldVxMem x => s.setRegsFrom0 (Memory.readBytes s.mem s.base (x.toNat + 1))

/-- Every instruction is its check and its effect: it never faults and is never refused. -/
theorem exec_eq_guarded (i : Instr) (s : State) : exec i s = guarded (instrCheck i s) s (instrEffect i s) := by
  cases i
  case ldVxK x => simp only [exec, execLdVxK, instrCheck, instrEffect, guarded]; cases s.lowestKey <;> rfl
  all_goals rfl

/-- What an instruction can do: its effect, or its fatal condition and nothing else (60_exceptions.md R173). -/
theorem exec_eq_next_iff (i : Instr) (s t : State) :
    exec i s = .next t ↔
      (instrCheck i s = none ∧ t = instrEffect i s) ∨ ∃ f, instrCheck i s = some f ∧ t = raise f s := by
  rw [exec_eq_guarded, guarded_eq_next_iff]

/-- An instruction with a state after it: the effect, or the fatal condition. -/
theorem exec_next (i : Instr) (s : State) : ∃ t, exec i s = .next t := by
  rw [exec_eq_guarded]
  cases instrCheck i s with
  | none => exact ⟨_, rfl⟩
  | some f => exact ⟨_, rfl⟩

@[simp] theorem drwEffect_halt (x y n : Nibble) (s : State) : (drwEffect x y n s).halt = s.halt := rfl
@[simp] theorem drwEffect_pc (x y n : Nibble) (s : State) : (drwEffect x y n s).pc = s.pc := rfl
@[simp] theorem drwEffect_mem (x y n : Nibble) (s : State) : (drwEffect x y n s).mem = s.mem := rfl
@[simp] theorem drwEffect_i (x y n : Nibble) (s : State) : (drwEffect x y n s).i = s.i := rfl
@[simp] theorem drwEffect_stack (x y n : Nibble) (s : State) : (drwEffect x y n s).stack = s.stack := rfl
@[simp] theorem drwEffect_sp (x y n : Nibble) (s : State) : (drwEffect x y n s).sp = s.sp := rfl
@[simp] theorem drwEffect_dt (x y n : Nibble) (s : State) : (drwEffect x y n s).dt = s.dt := rfl
@[simp] theorem drwEffect_st (x y n : Nibble) (s : State) : (drwEffect x y n s).st = s.st := rfl
@[simp] theorem drwEffect_key (x y n : Nibble) (s : State) : (drwEffect x y n s).key = s.key := rfl
@[simp] theorem drwEffect_shlSel (x y n : Nibble) (s : State) : (drwEffect x y n s).shlSel = s.shlSel := rfl
@[simp] theorem drwEffect_draws (x y n : Nibble) (s : State) : (drwEffect x y n s).draws = s.draws := rfl
@[simp] theorem drwEffect_readByte (x y n : Nibble) (s : State) (a : Nat) :
    (drwEffect x y n s).readByte a = s.readByte a := rfl
@[simp] theorem drwEffect_keyDown (x y n : Nibble) (s : State) (k : Fin 16) :
    (drwEffect x y n s).keyDown k = s.keyDown k := rfl
@[simp] theorem drwEffect_fb (x y n : Nibble) (s : State) : (drwEffect x y n s).fb =
    (drawSprite (s.reg x) (s.reg y) (Memory.readBytes s.mem s.base n.toNat) s.fb).2 := rfl

theorem drwEffect_reg (x y n r : Nibble) (s : State) : (drwEffect x y n s).reg r =
    if r = vf then flagByte (drawSprite (s.reg x) (s.reg y) (Memory.readBytes s.mem s.base n.toNat) s.fb).1
    else s.reg r :=
  reg_setReg _ _ _ _

theorem drwEffect_reg_vf (x y n : Nibble) (s : State) : (drwEffect x y n s).reg 0xF =
    flagByte (drawSprite (s.reg x) (s.reg y) (Memory.readBytes s.mem s.base n.toNat) s.fb).1 :=
  (drwEffect_reg x y n 0xF s).trans (if_pos rfl)

/-- No effect writes the latch: only a fatal condition does (60_exceptions.md R172). -/
theorem instrEffect_halt (i : Instr) (s : State) : (instrEffect i s).halt = s.halt := by
  cases i
  case ldVxK x => simp only [instrEffect]; cases s.lowestKey <;> rfl
  all_goals simp [instrEffect, setRegFlag_eq]

/-! ### A step -/

/-- Everything a step of a running machine can do: the fetch is out of range; or the word is an instruction, and its
execute phase runs at the advanced state; or it is no instruction, and only `PC` advances (40_step_cycle.md R80 to
R86). -/
theorem step_cases (s : State) (h : s.Running) :
    (0xFFE < s.pc.toNat ∧ step s = .next (raise (.fetchRange s.pc.toNat) s) ∧
      stepReport s = .fatal (.fetchRange s.pc.toNat)) ∨
    (s.pc.toNat ≤ 0xFFE ∧ ∃ i, decodeWord s.shlSel s.fetchWord = some i ∧ step s = exec i s.advance ∧
      (∀ f, instrCheck i s.advance = some f → stepReport s = .fatal f) ∧
      (instrCheck i s.advance = none → stepReport s = .ok)) ∨
    (s.pc.toNat ≤ 0xFFE ∧ decodeWord s.shlSel s.fetchWord = none ∧ step s = .next s.advance ∧
      stepReport s = .diag s.fetchWord s.pc) := by
  have hr : s.halt = .running := h
  by_cases hp : s.pc.toNat ≤ 0xFFE
  · have hc := (fetchCheck_eq_none_iff s).2 hp
    cases hd : decodeWord s.shlSel s.fetchWord with
    | none => exact .inr (.inr ⟨hp, rfl, by simp [step, cycle, runCycle, hr, hc, hd], by simp [stepReport, hr, hc, hd]⟩)
    | some i =>
      exact .inr (.inl ⟨hp, i, rfl, by simp [step, cycle, runCycle, hr, hc, hd],
        fun f hf => by simp [stepReport, hr, hc, hd, hf], fun hf => by simp [stepReport, hr, hc, hd, hf]⟩)
  · have hc := (fetchCheck_eq_some_iff s _).2 ⟨Nat.lt_of_not_le hp, rfl⟩
    exact .inl ⟨Nat.lt_of_not_le hp, by simp [step, cycle, runCycle, hr, hc], by simp [stepReport, hr, hc]⟩

/-- A halted machine has no step (40_step_cycle.md R88). -/
theorem step_halted (s : State) (h : ¬ s.Running) : step s = .fault (.halted s.halt) := by
  simp [step, cycle, show ¬ s.halt = .running from h]

/-- A step that answers a next state is a step of a running machine. -/
theorem running_of_step (s t : State) (h : step s = .next t) : s.Running := by
  by_contra hn
  rw [step_halted s hn] at h
  cases h

/-- STEP as a transaction leaves the next state and returns the report (46_host_operations.md R154). -/
theorem transact_step (s t : State) (h : step s = .next t) : transact .step s = (.stepped (stepReport s), t) := by
  simp [transact, hostStep, h]

/-- While `HALT` is set, a transaction other than RESET changes nothing (46_host_operations.md R163). -/
theorem transact_halted (s : State) (h : ¬ s.Running) (t : Transaction) (ht : t ≠ .reset) : (transact t s).2 = s := by
  have hn : ¬ s.halt = .running := h
  cases t
  case reset => exact absurd rfl ht
  case step => simp [transact, hostStep, step_halted s h]
  all_goals simp [transact, hn]

end Sys2Proof.Machine
end

