-- ==== Sys2Proof/Laws/Framebuffer.lean ====
section
/-! SUPPORT. What the framebuffer primitives and the sprite loop do, pixel by pixel. -/

namespace Sys2Proof.Machine

@[simp] theorem fbGet_fbClear (x : Fin 64) (y : Fin 32) : fbGet fbClear x y = false := by
  simp [fbGet, fbClear]

/-- A row word with one column on is on in that column alone. -/
theorem columnBit_getMsbD (x z : Fin 64) : (columnBit x).getMsbD z.val = decide (z = x) := by
  have := x.isLt
  have := z.isLt
  rw [columnBit, BitVec.getMsbD_twoPow]
  simp only [Fin.ext_iff, decide_eq_decide, ← Bool.decide_and]
  omega

/-- `fb_set` reports a collision exactly when the pixel was on and is set again (44_display.md R132). -/
theorem fbSet_collision (fb : Framebuffer) (x : Fin 64) (y : Fin 32) (s : Bool) :
    (fbSet fb x y s).1 = (fbGet fb x y && s) := rfl

/-- `fb_set` XORs one pixel and leaves every other as it was (44_display.md R132). -/
theorem fbGet_fbSet (fb : Framebuffer) (x z : Fin 64) (y w : Fin 32) (s : Bool) :
    fbGet (fbSet fb x y s).2 z w = (fbGet fb z w ^^ (s && decide (z = x) && decide (w = y))) := by
  cases s with
  | false => simp [fbSet]
  | true =>
    by_cases h : w = y
    · subst h
      simp [fbSet, fbGet, columnBit_getMsbD]
    · have hn : y.val ≠ w.val := fun e => h (Fin.ext e.symm)
      simp [fbSet, fbGet, hn, h]

/-! ### The sprite loop -/

theorem xor_false_iff (p : Prop) : Xor p False ↔ p := by simp [Xor]

theorem wrapX_inj (x0 c d : Nat) (hc : c < 64) (hd : d < 64) (h : wrapX (x0 + c) = wrapX (x0 + d)) : c = d := by
  simp only [wrapX, Fin.ofNat, Fin.mk.injEq] at h
  omega

theorem wrapY_inj (y0 c d : Nat) (hc : c < 32) (hd : d < 32) (h : wrapY (y0 + c) = wrapY (y0 + d)) : c = d := by
  simp only [wrapY, Fin.ofNat, Fin.mk.injEq] at h
  omega

/-- Drawing a list of distinct columns of one row: a pixel of that row flips exactly when a drawn column with a 1 bit
falls on it, and a collision is reported exactly when such a pixel was on. -/
theorem drawColumns_spec (x0 : Nat) (py : Fin 32) (b : Byte) (l : List Nat) (hl : l.Nodup) (h64 : ∀ c ∈ l, c < 64)
    (d : Bool × Framebuffer) :
    let d' := l.foldl
      (fun d c =>
        let r := fbSet d.2 (wrapX (x0 + c)) py (b.getMsbD c)
        (d.1 || r.1, r.2)) d
    (d'.1 = true ↔ d.1 = true ∨ ∃ c ∈ l, b.getMsbD c = true ∧ fbGet d.2 (wrapX (x0 + c)) py = true) ∧
    ∀ z w, (fbGet d'.2 z w = true ↔
      Xor (fbGet d.2 z w = true) (w = py ∧ ∃ c ∈ l, wrapX (x0 + c) = z ∧ b.getMsbD c = true)) := by
  induction l generalizing d with
  | nil => simp [Xor]
  | cons c l ih =>
    simp only [List.nodup_cons] at hl
    obtain ⟨ih1, ih2⟩ := ih hl.2 (fun e he => h64 e (by simp [he]))
      (d.1 || (fbSet d.2 (wrapX (x0 + c)) py (b.getMsbD c)).1, (fbSet d.2 (wrapX (x0 + c)) py (b.getMsbD c)).2)
    have hne : ∀ e ∈ l, wrapX (x0 + e) ≠ wrapX (x0 + c) := fun e he hw =>
      hl.1 (wrapX_inj x0 e c (h64 e (by simp [he])) (h64 c (by simp)) hw ▸ he)
    constructor
    · simp only [List.foldl_cons]
      rw [ih1]
      simp only [fbSet_collision, fbGet_fbSet, Bool.or_eq_true, Bool.and_eq_true, List.mem_cons, exists_eq_or_imp]
      constructor
      · rintro ((h | h) | ⟨e, he, hb, hp⟩)
        · exact .inl h
        · exact .inr (.inl ⟨h.2, h.1⟩)
        · refine .inr (.inr ⟨e, he, hb, ?_⟩)
          simpa [hne e he] using hp
      · rintro (h | h | ⟨e, he, hb, hp⟩)
        · exact .inl (.inl h)
        · exact .inl (.inr ⟨h.2, h.1⟩)
        · refine .inr ⟨e, he, hb, ?_⟩
          simpa [hne e he] using hp
    · intro z w
      simp only [List.foldl_cons]
      rw [ih2]
      simp only [fbGet_fbSet, List.mem_cons, exists_eq_or_imp]
      by_cases hw : w = py
      · by_cases hz : z = wrapX (x0 + c)
        · have : ¬ ∃ e ∈ l, wrapX (x0 + e) = z ∧ b.getMsbD e = true := by
            rintro ⟨e, he, h, -⟩
            exact hne e he (h.trans hz)
          subst hw hz
          simp only [this, and_false, or_false]
          cases fbGet d.2 (wrapX (x0 + c)) w <;> cases b.getMsbD c <;> simp [Xor]
        · have hz' : ¬ wrapX (x0 + c) = z := fun e => hz e.symm
          simp [hw, hz, hz']
      · simp [hw]

/-- One sprite row (44_display.md R134, R136, R137). -/
theorem drawRow_spec (x0 : Nat) (py : Fin 32) (b : Byte) (d : Bool × Framebuffer) :
    ((drawRow x0 py b d).1 = true ↔
      d.1 = true ∨ ∃ c < 8, b.getMsbD c = true ∧ fbGet d.2 (wrapX (x0 + c)) py = true) ∧
    ∀ z w, (fbGet (drawRow x0 py b d).2 z w = true ↔
      Xor (fbGet d.2 z w = true) (w = py ∧ ∃ c < 8, wrapX (x0 + c) = z ∧ b.getMsbD c = true)) := by
  have h := drawColumns_spec x0 py b (List.range 8) List.nodup_range (fun c hc => by simp at hc; omega) d
  simpa only [drawRow, List.mem_range] using h

/-- The sprite loop from row `y0`: a pixel flips exactly when a 1 bit of the sprite falls on it, and a collision is
reported exactly when such a pixel was on before the first row was drawn (44_display.md R134, R137). -/
theorem drawRows_spec (x0 y0 : Nat) (bs : List Byte) (hlen : bs.length ≤ 32) (d : Bool × Framebuffer) :
    ((drawRows x0 y0 bs d).1 = true ↔
      d.1 = true ∨ ∃ r < bs.length, ∃ c < 8,
        (bs.getD r 0).getMsbD c = true ∧ fbGet d.2 (wrapX (x0 + c)) (wrapY (y0 + r)) = true) ∧
    ∀ z w, (fbGet (drawRows x0 y0 bs d).2 z w = true ↔
      Xor (fbGet d.2 z w = true)
        (∃ r < bs.length, wrapY (y0 + r) = w ∧ ∃ c < 8, wrapX (x0 + c) = z ∧ (bs.getD r 0).getMsbD c = true)) := by
  induction bs generalizing y0 d with
  | nil => simp [drawRows, Xor]
  | cons b bs ih =>
    simp only [List.length_cons] at hlen
    obtain ⟨ih1, ih2⟩ := ih (y0 + 1) (by omega) (drawRow x0 (wrapY y0) b d)
    obtain ⟨row1, row2⟩ := drawRow_spec x0 (wrapY y0) b d
    have hne : ∀ r < bs.length, wrapY (y0 + 1 + r) ≠ wrapY y0 := by
      intro r hr h
      have := wrapY_inj y0 (1 + r) 0 (by omega) (by omega) (by rw [← Nat.add_assoc]; exact h)
      omega
    have hsplit : ∀ P : Nat → Prop, (∃ r < bs.length + 1, P r) ↔ P 0 ∨ ∃ r < bs.length, P (r + 1) := by
      intro P
      constructor
      · rintro ⟨r, hr, hp⟩
        cases r with
        | zero => exact .inl hp
        | succ r => exact .inr ⟨r, by omega, hp⟩
      · rintro (hp | ⟨r, hr, hp⟩)
        · exact ⟨0, by omega, hp⟩
        · exact ⟨r + 1, by omega, hp⟩
    have hadd : ∀ r, y0 + 1 + r = y0 + (r + 1) := fun r => by omega
    simp only [hadd] at hne ih1 ih2
    constructor
    · rw [drawRows, ih1, row1, List.length_cons, hsplit]
      simp only [List.getD_cons_zero, List.getD_cons_succ, Nat.add_zero]
      constructor
      · rintro ((h | h) | ⟨r, hr, c, hc, hb, hp⟩)
        · exact .inl h
        · exact .inr (.inl h)
        · refine .inr (.inr ⟨r, hr, c, hc, hb, ?_⟩)
          rw [row2] at hp
          simpa [hne r hr, xor_false_iff] using hp
      · rintro (h | h | ⟨r, hr, c, hc, hb, hp⟩)
        · exact .inl (.inl h)
        · exact .inl (.inr h)
        · refine .inr ⟨r, hr, c, hc, hb, ?_⟩
          rw [row2]
          simpa [hne r hr, xor_false_iff] using hp
    · intro z w
      rw [drawRows, ih2, row2, List.length_cons, hsplit]
      simp only [List.getD_cons_zero, List.getD_cons_succ, Nat.add_zero]
      by_cases hw : w = wrapY y0
      · have : ¬ ∃ r < bs.length, wrapY (y0 + (r + 1)) = w ∧
            ∃ c < 8, wrapX (x0 + c) = z ∧ (bs.getD r 0).getMsbD c = true := by
          rintro ⟨r, hr, h, -⟩
          exact hne r hr (h.trans hw)
        simp only [this, or_false, xor_false_iff]
        subst hw
        simp
      · have hw' : ¬ wrapY y0 = w := fun e => hw e.symm
        simp [hw, hw', xor_false_iff]

end Sys2Proof.Machine
end

