-- ==== Sys2Proof/Laws/PerInstr.lean ====
section
/-! SUPPORT. A statement about the syntax, proved constructor by constructor: for both values of `SHL_SEL`, the word the
encoder gives an instruction is a well-formed word, one that matches a row of the opcode map. -/

namespace Sys2Proof

/-- Every word the encoder gives the instruction matches a row of the opcode map (30_encoding.md R64, R66, R67). -/
def Laws.Recognised.Statement (i : Instr) : Prop := ∀ sel : ShlSel, wellFormedWord sel (encodeWord sel i) = true

theorem Laws.Recognised.cls : Laws.Recognised.Statement .cls := fun sel =>
  wellFormedWord_of_row sel _ ⟨0xFFFF, 0x00E0⟩ (by cases sel <;> decide)
    (by cases sel <;> decide)

theorem Laws.Recognised.ret : Laws.Recognised.Statement .ret := fun sel =>
  wellFormedWord_of_row sel _ ⟨0xFFFF, 0x00EE⟩ (by cases sel <;> decide)
    (by cases sel <;> decide)

theorem Laws.Recognised.jp (nnn : Addr) : Laws.Recognised.Statement (.jp nnn) := fun sel =>
  wellFormedWord_of_row sel _ ⟨0xF000, 0x1000⟩ (by cases sel <;> decide) (joinNnn_and_F000 _ _)

theorem Laws.Recognised.call (nnn : Addr) : Laws.Recognised.Statement (.call nnn) := fun sel =>
  wellFormedWord_of_row sel _ ⟨0xF000, 0x2000⟩ (by cases sel <;> decide) (joinNnn_and_F000 _ _)

theorem Laws.Recognised.seVxKk (x : Nibble) (kk : Byte) : Laws.Recognised.Statement (.seVxKk x kk) := fun sel =>
  wellFormedWord_of_row sel _ ⟨0xF000, 0x3000⟩ (by cases sel <;> decide) (joinXkk_and_F000 _ _ _)

theorem Laws.Recognised.sneVxKk (x : Nibble) (kk : Byte) : Laws.Recognised.Statement (.sneVxKk x kk) := fun sel =>
  wellFormedWord_of_row sel _ ⟨0xF000, 0x4000⟩ (by cases sel <;> decide) (joinXkk_and_F000 _ _ _)

theorem Laws.Recognised.seVxVy (x y : Nibble) : Laws.Recognised.Statement (.seVxVy x y) := fun sel =>
  wellFormedWord_of_row sel _ ⟨0xF00F, 0x5000⟩ (by cases sel <;> decide) (joinXyn_and_F00F _ _ _ _)

theorem Laws.Recognised.sneVxVy (x y : Nibble) : Laws.Recognised.Statement (.sneVxVy x y) := fun sel =>
  wellFormedWord_of_row sel _ ⟨0xF00F, 0x9000⟩ (by cases sel <;> decide) (joinXyn_and_F00F _ _ _ _)

theorem Laws.Recognised.ldVxKk (x : Nibble) (kk : Byte) : Laws.Recognised.Statement (.ldVxKk x kk) := fun sel =>
  wellFormedWord_of_row sel _ ⟨0xF000, 0x6000⟩ (by cases sel <;> decide) (joinXkk_and_F000 _ _ _)

theorem Laws.Recognised.addVxKk (x : Nibble) (kk : Byte) : Laws.Recognised.Statement (.addVxKk x kk) := fun sel =>
  wellFormedWord_of_row sel _ ⟨0xF000, 0x7000⟩ (by cases sel <;> decide) (joinXkk_and_F000 _ _ _)

theorem Laws.Recognised.ldVxVy (x y : Nibble) : Laws.Recognised.Statement (.ldVxVy x y) := fun sel =>
  wellFormedWord_of_row sel _ ⟨0xF00F, 0x8000⟩ (by cases sel <;> decide) (joinXyn_and_F00F _ _ _ _)

theorem Laws.Recognised.orVxVy (x y : Nibble) : Laws.Recognised.Statement (.orVxVy x y) := fun sel =>
  wellFormedWord_of_row sel _ ⟨0xF00F, 0x8001⟩ (by cases sel <;> decide) (joinXyn_and_F00F _ _ _ _)

theorem Laws.Recognised.andVxVy (x y : Nibble) : Laws.Recognised.Statement (.andVxVy x y) := fun sel =>
  wellFormedWord_of_row sel _ ⟨0xF00F, 0x8002⟩ (by cases sel <;> decide) (joinXyn_and_F00F _ _ _ _)

theorem Laws.Recognised.xorVxVy (x y : Nibble) : Laws.Recognised.Statement (.xorVxVy x y) := fun sel =>
  wellFormedWord_of_row sel _ ⟨0xF00F, 0x8003⟩ (by cases sel <;> decide) (joinXyn_and_F00F _ _ _ _)

theorem Laws.Recognised.addVxVy (x y : Nibble) : Laws.Recognised.Statement (.addVxVy x y) := fun sel =>
  wellFormedWord_of_row sel _ ⟨0xF00F, 0x8004⟩ (by cases sel <;> decide) (joinXyn_and_F00F _ _ _ _)

theorem Laws.Recognised.subVxVy (x y : Nibble) : Laws.Recognised.Statement (.subVxVy x y) := fun sel =>
  wellFormedWord_of_row sel _ ⟨0xF00F, 0x8005⟩ (by cases sel <;> decide) (joinXyn_and_F00F _ _ _ _)

theorem Laws.Recognised.shrVx (x y : Nibble) : Laws.Recognised.Statement (.shrVx x y) := fun sel =>
  wellFormedWord_of_row sel _ ⟨0xF00F, 0x8006⟩ (by cases sel <;> decide) (joinXyn_and_F00F _ _ _ _)

theorem Laws.Recognised.subnVxVy (x y : Nibble) : Laws.Recognised.Statement (.subnVxVy x y) := fun sel =>
  wellFormedWord_of_row sel _ ⟨0xF00F, 0x8007⟩ (by cases sel <;> decide) (joinXyn_and_F00F _ _ _ _)

theorem Laws.Recognised.shlVx (x y : Nibble) : Laws.Recognised.Statement (.shlVx x y) := fun sel =>
  wellFormedWord_of_row sel _ ⟨0xF00F, sel.pattern⟩ (by cases sel <;> decide)
    ((joinXyn_and_F00F 0x8#4 x y sel.nibble).trans (by cases sel <;> rfl))

theorem Laws.Recognised.ldINnn (nnn : Addr) : Laws.Recognised.Statement (.ldINnn nnn) := fun sel =>
  wellFormedWord_of_row sel _ ⟨0xF000, 0xA000⟩ (by cases sel <;> decide) (joinNnn_and_F000 _ _)

theorem Laws.Recognised.jpV0Nnn (nnn : Addr) : Laws.Recognised.Statement (.jpV0Nnn nnn) := fun sel =>
  wellFormedWord_of_row sel _ ⟨0xF000, 0xB000⟩ (by cases sel <;> decide) (joinNnn_and_F000 _ _)

theorem Laws.Recognised.rndVxKk (x : Nibble) (kk : Byte) : Laws.Recognised.Statement (.rndVxKk x kk) := fun sel =>
  wellFormedWord_of_row sel _ ⟨0xF000, 0xC000⟩ (by cases sel <;> decide) (joinXkk_and_F000 _ _ _)

theorem Laws.Recognised.drwVxVyN (x y n : Nibble) : Laws.Recognised.Statement (.drwVxVyN x y n) := fun sel =>
  wellFormedWord_of_row sel _ ⟨0xF000, 0xD000⟩ (by cases sel <;> decide) (joinXyn_and_F000 _ _ _ _)

theorem Laws.Recognised.skpVx (x : Nibble) : Laws.Recognised.Statement (.skpVx x) := fun sel =>
  wellFormedWord_of_row sel _ ⟨0xF0FF, 0xE09E⟩ (by cases sel <;> decide) (joinXkk_and_F0FF _ _ _)

theorem Laws.Recognised.sknpVx (x : Nibble) : Laws.Recognised.Statement (.sknpVx x) := fun sel =>
  wellFormedWord_of_row sel _ ⟨0xF0FF, 0xE0A1⟩ (by cases sel <;> decide) (joinXkk_and_F0FF _ _ _)

theorem Laws.Recognised.ldVxDt (x : Nibble) : Laws.Recognised.Statement (.ldVxDt x) := fun sel =>
  wellFormedWord_of_row sel _ ⟨0xF0FF, 0xF007⟩ (by cases sel <;> decide) (joinXkk_and_F0FF _ _ _)

theorem Laws.Recognised.ldVxK (x : Nibble) : Laws.Recognised.Statement (.ldVxK x) := fun sel =>
  wellFormedWord_of_row sel _ ⟨0xF0FF, 0xF00A⟩ (by cases sel <;> decide) (joinXkk_and_F0FF _ _ _)

theorem Laws.Recognised.ldDtVx (x : Nibble) : Laws.Recognised.Statement (.ldDtVx x) := fun sel =>
  wellFormedWord_of_row sel _ ⟨0xF0FF, 0xF015⟩ (by cases sel <;> decide) (joinXkk_and_F0FF _ _ _)

theorem Laws.Recognised.ldStVx (x : Nibble) : Laws.Recognised.Statement (.ldStVx x) := fun sel =>
  wellFormedWord_of_row sel _ ⟨0xF0FF, 0xF018⟩ (by cases sel <;> decide) (joinXkk_and_F0FF _ _ _)

theorem Laws.Recognised.addIVx (x : Nibble) : Laws.Recognised.Statement (.addIVx x) := fun sel =>
  wellFormedWord_of_row sel _ ⟨0xF0FF, 0xF01E⟩ (by cases sel <;> decide) (joinXkk_and_F0FF _ _ _)

theorem Laws.Recognised.ldFVx (x : Nibble) : Laws.Recognised.Statement (.ldFVx x) := fun sel =>
  wellFormedWord_of_row sel _ ⟨0xF0FF, 0xF029⟩ (by cases sel <;> decide) (joinXkk_and_F0FF _ _ _)

theorem Laws.Recognised.ldBVx (x : Nibble) : Laws.Recognised.Statement (.ldBVx x) := fun sel =>
  wellFormedWord_of_row sel _ ⟨0xF0FF, 0xF033⟩ (by cases sel <;> decide) (joinXkk_and_F0FF _ _ _)

theorem Laws.Recognised.ldMemVx (x : Nibble) : Laws.Recognised.Statement (.ldMemVx x) := fun sel =>
  wellFormedWord_of_row sel _ ⟨0xF0FF, 0xF055⟩ (by cases sel <;> decide) (joinXkk_and_F0FF _ _ _)

theorem Laws.Recognised.ldVxMem (x : Nibble) : Laws.Recognised.Statement (.ldVxMem x) := fun sel =>
  wellFormedWord_of_row sel _ ⟨0xF0FF, 0xF065⟩ (by cases sel <;> decide) (joinXkk_and_F0FF _ _ _)

end Sys2Proof
end

