-- ==== Sys2Proof/Tests/Slice0.lean ====
section
/-! SUPPORT. The model's own tests: ill-formed words, one word per instruction written out from the patterns of
30_encoding.md R66, single steps whose results are the vectors of 95_test_vectors.md (named in each comment), and for
every statement with hypotheses a state that meets them. -/

namespace Sys2Proof.Tests

open Sys2Proof.Machine

/-! ### Helpers -/

/-- The reset state with bytes at 0x200 and some registers set. -/
def startWith (bytes : List Byte) (v : List (Nibble × Byte)) : State :=
  v.foldl (fun s p => s.setReg p.1 p.2) (State.reset.storeBytes 0x200 bytes)

/-- A state with some pixels turned over. -/
def flip (s : State) (pixels : List (Fin 64 × Fin 32)) : State :=
  s.setFb (pixels.foldl (fun fb p => (fbSet fb p.1 p.2 true).2) s.fb)

/-- A state with one key pressed. -/
def press (s : State) (k : Fin 16) : State := { s with key := s.key.set k.val true }

/-- There is a next state, and it passes the check. -/
def after (r : Result) (check : State → Bool) : Bool :=
  match r with
  | .next t => check t
  | .fault _ => false
  | .refused _ => false

/-! ### Well-formed words -/

/-- E03, E04, E05, E06: the whole word of CLS must match, and no other `0nnn` has a meaning. -/
theorem test_illformed_fixed :
    wellFormedWord .eight 0x00E1 = false ∧ wellFormedWord .eight 0x01E0 = false ∧
    wellFormedWord .eight 0x0ABC = false ∧ wellFormedWord .eight 0x0122 = false := by decide

/-- E12, E14: the trailing nibble of the register skips must be 0. -/
theorem test_illformed_skip :
    wellFormedWord .eight 0x5AB1 = false ∧ wellFormedWord .eight 0x9ABF = false := by decide

/-- E18, E19, E20: the ALU group, under both values of `SHL_SEL`. -/
theorem test_illformed_alu :
    wellFormedWord .eight 0x812E = false ∧ wellFormedWord .e 0x8128 = false ∧
    wellFormedWord .eight 0x8129 = false ∧ wellFormedWord .e 0x812F = false ∧
    wellFormedWord .eight 0x8128 = true ∧ wellFormedWord .e 0x812E = true := by decide

/-- E27, E29: the low bytes of the key and `Fxkk` groups. -/
theorem test_illformed_low_byte :
    wellFormedWord .eight 0xE19F = false ∧ wellFormedWord .eight 0xE100 = false ∧
    wellFormedWord .eight 0xF175 = false ∧ wellFormedWord .eight 0xF130 = false := by decide

/-! ### Decoding: one word per instruction, bit by bit -/

/-- E01, E02, E07, E08, E22. -/
theorem test_decode_control :
    decodeWord .eight 0b0000_0000_1110_0000 = some .cls ∧
    decodeWord .eight 0b0000_0000_1110_1110 = some .ret ∧
    decodeWord .eight 0b0001_0010_0011_0100 = some (.jp 0x234) ∧
    decodeWord .eight 0b0010_1111_1111_1111 = some (.call 0xFFF) ∧
    decodeWord .eight 0b1011_0001_0010_0011 = some (.jpV0Nnn 0x123) := by decide

/-- E09, E10, E11, E13. -/
theorem test_decode_skips :
    decodeWord .eight 0b0011_1010_0111_1111 = some (.seVxKk 0xA 0x7F) ∧
    decodeWord .eight 0b0100_1011_0000_0000 = some (.sneVxKk 0xB 0x00) ∧
    decodeWord .eight 0b0101_1010_1011_0000 = some (.seVxVy 0xA 0xB) ∧
    decodeWord .eight 0b1001_1010_1011_0000 = some (.sneVxVy 0xA 0xB) := by decide

/-- E15, E16, E17, E18, E19, E23. -/
theorem test_decode_alu :
    decodeWord .eight 0b0110_1100_0101_0101 = some (.ldVxKk 0xC 0x55) ∧
    decodeWord .eight 0b0111_1101_1111_1111 = some (.addVxKk 0xD 0xFF) ∧
    decodeWord .eight 0b1000_0001_0010_0000 = some (.ldVxVy 0x1 0x2) ∧
    decodeWord .eight 0b1000_0001_0010_0001 = some (.orVxVy 0x1 0x2) ∧
    decodeWord .eight 0b1000_0001_0010_0010 = some (.andVxVy 0x1 0x2) ∧
    decodeWord .eight 0b1000_0001_0010_0011 = some (.xorVxVy 0x1 0x2) ∧
    decodeWord .eight 0b1000_0001_0010_0100 = some (.addVxVy 0x1 0x2) ∧
    decodeWord .eight 0b1000_0001_0010_0101 = some (.subVxVy 0x1 0x2) ∧
    decodeWord .eight 0b1000_0001_0010_0110 = some (.shrVx 0x1 0x2) ∧
    decodeWord .eight 0b1000_0001_0010_0111 = some (.subnVxVy 0x1 0x2) ∧
    decodeWord .eight 0b1000_0001_0010_1000 = some (.shlVx 0x1 0x2) ∧
    decodeWord .e 0b1000_0001_0010_1110 = some (.shlVx 0x1 0x2) ∧
    decodeWord .eight 0b1100_0001_1111_0000 = some (.rndVxKk 0x1 0xF0) := by decide

/-- E21, E24, and of E28 the index and memory rows. -/
theorem test_decode_index_display :
    decodeWord .eight 0b1010_0001_0010_0011 = some (.ldINnn 0x123) ∧
    decodeWord .eight 0b1101_0001_0010_0101 = some (.drwVxVyN 0x1 0x2 0x5) ∧
    decodeWord .eight 0b1111_0001_0001_1110 = some (.addIVx 0x1) ∧
    decodeWord .eight 0b1111_0001_0010_1001 = some (.ldFVx 0x1) ∧
    decodeWord .eight 0b1111_0001_0011_0011 = some (.ldBVx 0x1) ∧
    decodeWord .eight 0b1111_0001_0101_0101 = some (.ldMemVx 0x1) ∧
    decodeWord .eight 0b1111_0001_0110_0101 = some (.ldVxMem 0x1) := by decide

/-- E25, E26, and of E28 the key and timer rows. -/
theorem test_decode_keys_timers :
    decodeWord .eight 0b1110_0001_1001_1110 = some (.skpVx 0x1) ∧
    decodeWord .eight 0b1110_0001_1010_0001 = some (.sknpVx 0x1) ∧
    decodeWord .eight 0b1111_0001_0000_0111 = some (.ldVxDt 0x1) ∧
    decodeWord .eight 0b1111_0001_0000_1010 = some (.ldVxK 0x1) ∧
    decodeWord .eight 0b1111_0001_0001_0101 = some (.ldDtVx 0x1) ∧
    decodeWord .eight 0b1111_0001_0001_1000 = some (.ldStVx 0x1) := by decide

/-- The rows 0x8124 and 0xF165 of the opcode table, read as the table numbers bits, and placed where a step fetches. -/
theorem test_table_word :
    decodeTableWord 16 0x8124 = some (.addVxVy 0x1 0x2) ∧ decodeTableWord 16 0xF165 = some (.ldVxMem 0x1) ∧
    decodeTableWord 16 0x5121 = none ∧ (State.reset.withFetchWord 16 0x8124).fetchWord = 0x8124 := by decide

/-! ### The step cycle -/

/-- X01: the fetch is big-endian, `JP 0x234` and not 0x3412. -/
theorem test_fetch_big_endian : after (step (startWith [0x12, 0x34] [])) (fun t => t.pc == 0x234) = true := by decide

/-- X02: an odd `PC` is legal. -/
theorem test_fetch_odd_pc :
    after (step { startWith [0x00, 0x6A, 0x7F] [] with pc := 0x201 })
      (fun t => t.pc == 0x203 && t.reg 0xA == 0x7F) = true := by decide

/-- X03: 0x0FFE is the last legal fetch address, and the advance does not wrap. -/
theorem test_fetch_last_word :
    after (step { State.reset.storeBytes 0xFFE [0x60, 0x01] with pc := 0xFFE })
      (fun t => t.pc == 0x1000 && t.reg 0 == 1 && t.halt == .running) = true := by decide

/-- X04b: at 0x0FFF the fetch is out of range; `PC` is not advanced. -/
theorem test_fetch_range :
    after (step { State.reset with pc := 0xFFF }) (fun t => t.pc == 0xFFF && t.halt.code == 5) = true := by decide

/-- X06: `0xy2` is no instruction: a diagnostic, and only `PC` changes. -/
theorem test_unrecognised :
    after (step (startWith [0x01, 0x22] [(1, 0xF0), (2, 0x3C)])) (fun t => t.pc == 0x202 && t.reg 1 == 0xF0) = true ∧
    stepReport (startWith [0x01, 0x22] [(1, 0xF0), (2, 0x3C)]) = .diag 0x0122 0x200 := by decide

/-! ### Control transfer -/

/-- J01. -/
theorem test_ret :
    after (exec .ret { State.reset with pc := 0x214, sp := 1, stack := State.reset.stack.set 0 0x206 })
      (fun t => t.pc == 0x206 && t.sp == 0 && t.stack[0] == 0x206) = true := by decide

/-- J02: the fault leaves `PC` past the instruction. -/
theorem test_ret_underflow :
    after (step (startWith [0x00, 0xEE] [])) (fun t => t.pc == 0x202 && t.halt.code == 2 && t.sp == 0) = true := by
  decide

/-- J03. -/
theorem test_jp : after (step (startWith [0x13, 0x00] [])) (fun t => t.pc == 0x300) = true := by decide

/-- J06: the sixteenth nested call succeeds and pushes the advanced `PC`. -/
theorem test_call :
    after (step { startWith [0x23, 0x00] [] with sp := 15 })
      (fun t => t.pc == 0x300 && t.sp == 16 && t.stack[15] == 0x202) = true := by decide

/-- J07. -/
theorem test_call_overflow :
    after (step { startWith [0x23, 0x00] [] with sp := 16 })
      (fun t => t.pc == 0x202 && t.halt.code == 1 && t.sp == 16 && t.stack[15] == 0) = true := by decide

/-- J08, J09. -/
theorem test_se_immediate :
    after (step (startWith [0x33, 0x42] [(3, 0x42)])) (fun t => t.pc == 0x204) = true ∧
    after (step (startWith [0x33, 0x43] [(3, 0x42)])) (fun t => t.pc == 0x202) = true := by decide

/-- J10, J11. -/
theorem test_sne_immediate :
    after (step (startWith [0x43, 0x43] [(3, 0x42)])) (fun t => t.pc == 0x204) = true ∧
    after (step (startWith [0x43, 0x42] [(3, 0x42)])) (fun t => t.pc == 0x202) = true := by decide

/-- J12, J13. -/
theorem test_se_register :
    after (step (startWith [0x51, 0x20] [(1, 7), (2, 7)])) (fun t => t.pc == 0x204) = true ∧
    after (step (startWith [0x51, 0x20] [(1, 7), (2, 8)])) (fun t => t.pc == 0x202) = true := by decide

/-- J15, J16. -/
theorem test_sne_register :
    after (step (startWith [0x91, 0x20] [(1, 7), (2, 8)])) (fun t => t.pc == 0x204) = true ∧
    after (step (startWith [0x91, 0x20] [(1, 7), (2, 7)])) (fun t => t.pc == 0x202) = true := by decide

/-- J20: the sum is not reduced modulo 4096. -/
theorem test_jp_v0 : after (step (startWith [0xBF, 0xFF] [(0, 0xFF)])) (fun t => t.pc == 0x10FE) = true := by decide

/-- J21: always `V0`, whatever the digits of the address. -/
theorem test_jp_v0_not_vx :
    after (step (startWith [0xB3, 0xFF] [(3, 0x55)])) (fun t => t.pc == 0x3FF) = true := by decide

/-! ### Load, ALU and random -/

/-- A02: VF is an ordinary destination. -/
theorem test_ld_immediate : after (step (startWith [0x6F, 0xFF] [])) (fun t => t.reg 0xF == 0xFF) = true := by decide

/-- A04: wraps, and VF keeps AA. -/
theorem test_add_immediate :
    after (step (startWith [0x71, 0x02] [(1, 0xFF), (0xF, 0xAA)])) (fun t => t.reg 1 == 1 && t.reg 0xF == 0xAA) = true := by
  decide

/-- A05. -/
theorem test_ld_register :
    after (step (startWith [0x81, 0x20] [(1, 0x11), (2, 0x22)])) (fun t => t.reg 1 == 0x22 && t.reg 2 == 0x22) = true := by
  decide

/-- A06, A07, A08: VF keeps 55. -/
theorem test_logic :
    after (step (startWith [0x81, 0x21] [(1, 0xF0), (2, 0x3C), (0xF, 0x55)]))
      (fun t => t.reg 1 == 0xFC && t.reg 0xF == 0x55) = true ∧
    after (step (startWith [0x81, 0x22] [(1, 0xF0), (2, 0x3C), (0xF, 0x55)]))
      (fun t => t.reg 1 == 0x30 && t.reg 0xF == 0x55) = true ∧
    after (step (startWith [0x81, 0x23] [(1, 0xF0), (2, 0x3C), (0xF, 0x55)]))
      (fun t => t.reg 1 == 0xCC && t.reg 0xF == 0x55) = true := by decide

/-- A10, A11: carry at 256, none at 255. -/
theorem test_add_carry :
    after (step (startWith [0x81, 0x24] [(1, 0xFF), (2, 0x01)])) (fun t => t.reg 1 == 0 && t.reg 0xF == 1) = true ∧
    after (step (startWith [0x81, 0x24] [(1, 0x7F), (2, 0x80)])) (fun t => t.reg 1 == 0xFF && t.reg 0xF == 0) = true := by
  decide

/-- A13: with `x` = F the flag remains. -/
theorem test_add_into_vf :
    after (step (startWith [0x8F, 0x24] [(2, 0x20), (0xF, 0xF0)])) (fun t => t.reg 0xF == 1) = true := by decide

/-- A16, A17: no flag when smaller, none at equality. -/
theorem test_sub :
    after (step (startWith [0x81, 0x25] [(1, 3), (2, 5), (0xF, 1)])) (fun t => t.reg 1 == 0xFE && t.reg 0xF == 0) = true ∧
    after (step (startWith [0x81, 0x25] [(1, 5), (2, 5), (0xF, 1)])) (fun t => t.reg 1 == 0 && t.reg 0xF == 0) = true := by
  decide

/-- A22: Vy is not used; bit 7 becomes 0. -/
theorem test_shr :
    after (step (startWith [0x81, 0x26] [(1, 0xFF), (2, 0)])) (fun t => t.reg 1 == 0x7F && t.reg 0xF == 1) = true := by
  decide

/-- A28: `y` = F, the old VF is the operand. -/
theorem test_subn :
    after (step (startWith [0x81, 0xF7] [(1, 1), (0xF, 0)])) (fun t => t.reg 1 == 0xFF && t.reg 0xF == 0) = true := by
  decide

/-- A32, A33: Vy is not used; the flag is 01, never 80. -/
theorem test_shl :
    after (step (startWith [0x83, 0x48] [(3, 0x80), (4, 0x33)])) (fun t => t.reg 3 == 0 && t.reg 0xF == 1) = true ∧
    after (step (startWith [0x8F, 0x08] [(0xF, 0x80)])) (fun t => t.reg 0xF == 1) = true := by decide

/-- A34, A36: with `SHL_SEL` = 0xE the word 0x830E shifts and 0x8308 is unrecognised. -/
theorem test_shl_select :
    after (step { startWith [0x83, 0x0E] [(3, 0x81)] with shlSel := .e })
      (fun t => t.reg 3 == 2 && t.reg 0xF == 1) = true ∧
    after (step { startWith [0x83, 0x08] [(3, 0x81)] with shlSel := .e })
      (fun t => t.reg 3 == 0x81 && t.reg 0xF == 0 && t.pc == 0x202) = true := by decide

/-- A38, A41: RND with the drawn byte given. -/
theorem test_rnd :
    (rndWith 0xA7 2 0x0F (startWith [] [(2, 0xEE)])).reg 2 = 0x07 ∧ (rndWith 0xFF 0xF 0x81 State.reset).reg 0xF = 0x81 := by
  decide

/-! ### Index register and memory -/

/-- M01: the top four bits are cleared. -/
theorem test_ld_index :
    after (step { startWith [0xA2, 0xF0] [] with i := 0xFFFF }) (fun t => t.i == 0x2F0) = true := by decide

/-- M03, M03b: no wrap at 12 bits, a wrap at 16, no flag. -/
theorem test_add_index :
    after (step { startWith [0xF2, 0x1E] [(2, 1)] with i := 0xFFF }) (fun t => t.i == 0x1000 && t.reg 0xF == 0) = true ∧
    after (step { startWith [0xF2, 0x1E] [(2, 1)] with i := 0xFFFF }) (fun t => t.i == 0 && t.reg 0xF == 0) = true := by
  decide

/-- M04, M06: 50 and 1275 bytes past the font's base. -/
theorem test_glyph_address :
    glyphAddress 0x0A = BitVec.ofNat 16 (Config.fontBase.val + 50) ∧
    glyphAddress 0xFF = BitVec.ofNat 16 (Config.fontBase.val + 1275) := ⟨rfl, rfl⟩

/-- M10: the digits of 123 at the last legal base. -/
theorem test_bcd :
    after (step { startWith [0xF4, 0x33] [(4, 0x7B)] with i := 0xFFD })
      (fun t => t.readByte 0xFFD == 1 && t.readByte 0xFFE == 2 && t.readByte 0xFFF == 3 && t.i == 0xFFD) = true := by
  decide

/-- M11: one byte further nothing is written. -/
theorem test_bcd_range :
    after (step { startWith [0xF4, 0x33] [(4, 0x7B)] with i := 0xFFE })
      (fun t => t.pc == 0x202 && t.halt.code == 4 && t.readByte 0xFFE == 0 && t.readByte 0xFFF == 0) = true := by decide

/-- M12: two bytes stored, `V2` is not. -/
theorem test_store_registers :
    after (step { startWith [0xF1, 0x55] [(0, 0x12), (1, 0x0A), (2, 0x77)] with i := 0x20A })
      (fun t => t.readByte 0x20A == 0x12 && t.readByte 0x20B == 0x0A && t.readByte 0x20C == 0 && t.i == 0x20A) = true := by
  decide

/-- M16: `V3` is not loaded, `I` stays. -/
theorem test_load_registers :
    after (step { (startWith [0xF2, 0x65] [(3, 0x44)]).storeBytes 0x300 [2, 5, 5, 9] with i := 0x300 })
      (fun t => t.reg 0 == 2 && t.reg 1 == 5 && t.reg 2 == 5 && t.reg 3 == 0x44 && t.i == 0x300) = true := by decide

/-- M18: a load that reaches 0x1000 loads nothing. -/
theorem test_load_registers_range :
    after (step { (startWith [0xF2, 0x65] []).storeBytes 0xFFE [7, 8] with i := 0xFFE })
      (fun t => t.halt.code == 4 && t.reg 0 == 0 && t.reg 1 == 0) = true := by decide

/-! ### Display -/

/-- G12: VF is not written. -/
theorem test_cls :
    after (step (flip (startWith [0x00, 0xE0] [(0xF, 1)]) [(0, 0), (63, 31), (5, 7)]))
      (fun t => t.fb == fbClear && t.reg 0xF == 1) = true := by decide

/-- G03: eight columns from 60, wrapped. -/
theorem test_drw_wraps :
    after (step { (startWith [0xD0, 0x11] [(0, 0x3C)]).storeBytes 0x300 [0xFF] with i := 0x300 })
      (fun t => t.fb == (flip State.reset [(60, 0), (61, 0), (62, 0), (63, 0), (0, 0), (1, 0), (2, 0), (3, 0)]).fb &&
        t.reg 0xF == 0) = true := by decide

/-- G07: one pixel collides, one is new. -/
theorem test_drw_collides :
    after (step { flip ((startWith [0xD0, 0x11] [(0, 5), (1, 7)]).storeBytes 0x300 [0xC0]) [(5, 7)] with i := 0x300 })
      (fun t => t.fb == (flip State.reset [(6, 7)]).fb && t.reg 0xF == 1) = true := by decide

/-! ### Keys and timers -/

/-- K01, K05: the skip; an index of 0x10 is fatal though key 0 is pressed. -/
theorem test_skp :
    after (step (press (startWith [0xE2, 0x9E] [(2, 5)]) 5)) (fun t => t.pc == 0x204) = true ∧
    after (step (press (startWith [0xE2, 0x9E] [(2, 0x10)]) 0)) (fun t => t.pc == 0x202 && t.halt.code == 6) = true := by
  decide

/-- K03, K04. -/
theorem test_sknp :
    after (step (startWith [0xE2, 0xA1] [(2, 5)])) (fun t => t.pc == 0x204) = true ∧
    after (step (press (startWith [0xE2, 0xA1] [(2, 5)]) 5)) (fun t => t.pc == 0x202) = true := by decide

/-- K07. -/
theorem test_ld_from_dt :
    after (step { startWith [0xF3, 0x07] [] with dt := 0x1E }) (fun t => t.reg 3 == 0x1E && t.dt == 0x1E) = true := by
  decide

/-- K08: the lowest of keys 3 and 7. -/
theorem test_key_wait :
    after (step (press (press (startWith [0xF0, 0x0A] [(0, 0xEE)]) 7) 3)) (fun t => t.pc == 0x202 && t.reg 0 == 3) = true := by
  decide

/-- K09: no key, the same instruction again. -/
theorem test_key_wait_none :
    after (step (startWith [0xF0, 0x0A] [(0, 0xEE)])) (fun t => t.pc == 0x200 && t.reg 0 == 0xEE) = true := by decide

/-- K11, K12. -/
theorem test_ld_to_timers :
    after (step (startWith [0xF1, 0x15] [(1, 0x3C)])) (fun t => t.dt == 0x3C && t.st == 0) = true ∧
    after (step (startWith [0xF1, 0x18] [(1, 5)])) (fun t => t.st == 5 && t.dt == 0) = true := by decide

/-! ### Host transactions -/

/-- H02: RESET is the way out of a halt. -/
theorem test_reset_from_halt :
    (transact .reset { State.reset with halt := .stackOverflow, sp := 16, pc := 0x202 }).2 = State.reset := by decide

/-- H05: LOAD leaves the rest of memory. -/
theorem test_load :
    (transact (.load [0x60, 0x01]) (startWith [0x12, 0x34, 0x56] [])).2.mem = [(0x200, 0x60), (0x201, 0x01), (0x202, 0x56)] := by
  decide

/-- H04: 3585 bytes are rejected. -/
theorem test_load_too_large :
    transact (.load (List.replicate 3585 0xFF)) State.reset = (.loadTooLarge, State.reset) := by
  have h : (List.replicate 3585 (0xFF : Byte)).length > Config.romMax := by rw [List.length_replicate]; decide
  simp only [transact, hostLoad, if_pos h]
  rfl

/-- H08, H10. -/
theorem test_tick :
    (transact .tickTimers { State.reset with dt := 2 }).2 = { State.reset with dt := 1 } ∧
    (transact .tickTimers { State.reset with dt := 0xFF, st := 1 }).2 = { State.reset with dt := 0xFE } := by decide

/-- H13, H14: the largest legal index; the first illegal one. -/
theorem test_set_key :
    (transact (.setKey 15 true) State.reset).2 = press State.reset 15 ∧
    transact (.setKey 16 true) State.reset = (.fatal (.hostKeyIndex 16), { State.reset with halt := .hostKeyIndex }) := by
  decide

/-- H17: a halted machine is frozen and answers. -/
theorem test_halted_replies :
    transactAll [.tickTimers, .setKey 1 true, .load [0xFF], .step, .readDt] { State.reset with halt := .stackUnderflow, dt := 5 } =
      ([.none, .noEffect, .noEffect, .stepped .halted, .byte 5], { State.reset with halt := .stackUnderflow, dt := 5 }) := by
  decide

/-! ### Witnesses: for each statement with hypotheses, values that meet them -/

theorem witness_EncodeAfterDecode : decodeWord .e 0x8F2E = some (.shlVx 0xF 0x2) := by decide

theorem witness_InstructionIffOneRowMatches :
    (⟨0xF0FF, 0xF065⟩ : Row) ∈ opcodeMap .eight ∧ (0xFF65 : Word) &&& 0xF0FF = 0xF065 := by decide

theorem witness_StepRunsDecodedInstruction :
    let s := { State.reset.storeBytes 0xFFE [0x60, 0x01] with pc := 0xFFE }
    s.Running ∧ s.pc.toNat ≤ 0xFFE ∧
      decodeBytes s.shlSel [s.readByte s.pc.toNat, s.readByte (s.pc.toNat + 1)] = .instr (.ldVxKk 0 1) [] := by decide

theorem witness_FetchOutOfRangeIsFatal :
    let s := { State.reset with pc := 0xFFF }
    s.Running ∧ 0xFFE < s.pc.toNat := by decide

theorem witness_UnrecognisedWordIsNoOp :
    State.reset.Running ∧ State.reset.pc.toNat ≤ 0xFFE ∧
      ∀ i, decodeWord State.reset.shlSel (wordOfBytes (State.reset.readByte State.reset.pc.toNat)
        (State.reset.readByte (State.reset.pc.toNat + 1))) ≠ some i :=
  ⟨rfl, by decide, fun i h => by cases h.symm.trans (by decide : _ = none)⟩

theorem witness_HaltedMachineIsFrozen :
    ¬ ({ State.reset with halt := .memRange } : State).Running ∧ Transaction.reset ∉ [.step, .tickTimers, .readDt] := by
  decide

/-- A completion, a diagnostic and a fatal condition all occur. -/
theorem witness_StepEndsInOneOfThreeWays :
    stepReport (startWith [0x60, 0x01] []) = .ok ∧ stepReport State.reset = .diag 0 0x200 ∧
    stepReport (startWith [0x00, 0xEE] []) = .fatal .stackUnderflow ∧ (startWith [0x00, 0xEE] []).Running := by decide

/-- By the fetch, by an instruction, and by SET_KEY. -/
theorem witness_FatalConditionsArePrecise :
    after (step { State.reset with pc := 0xFFF }) (fun t => t.halt == .fetchRange) = true ∧
    after (step (startWith [0x00, 0xEE] [])) (fun t => t.halt == .stackUnderflow) = true ∧
    State.reset.Running ∧ ¬ (transact (.setKey 16 true) State.reset).2.Running := by decide

/-- One state on each side of every condition. -/
theorem witness_OnlyNamedInstructionsRaise :
    after (exec .ret { State.reset with sp := 1 }) (fun t => t.halt == .running) = true ∧
    after (exec .ret State.reset) (fun t => t.halt == .stackUnderflow) = true ∧
    after (exec (.call 0) { State.reset with sp := 15 }) (fun t => t.halt == .running) = true ∧
    after (exec (.call 0) { State.reset with sp := 16 }) (fun t => t.halt == .stackOverflow) = true ∧
    after (exec (.drwVxVyN 0 0 2) { State.reset with i := 0xFFE }) (fun t => t.halt == .running) = true ∧
    after (exec (.drwVxVyN 0 0 2) { State.reset with i := 0xFFF }) (fun t => t.halt == .memRange) = true ∧
    after (exec (.ldMemVx 0) { State.reset with i := 0x1000 }) (fun t => t.halt == .memRange) = true ∧
    after (exec (.skpVx 0) (startWith [] [(0, 15)])) (fun t => t.halt == .running) = true ∧
    after (exec (.sknpVx 0) (startWith [] [(0, 16)])) (fun t => t.halt == .keyIndex) = true := by decide

theorem witness_RetPops :
    0 < ({ State.reset with sp := 1 } : State).sp.val ∧ 0 < ({ State.reset with sp := 16 } : State).sp.val := by
  decide

theorem witness_CallPushes : State.reset.sp.val < 16 ∧ ({ State.reset with sp := 15 } : State).sp.val < 16 := by decide

theorem witness_StackFaultsChangeNothing :
    ({ State.reset with sp := 16 } : State).sp.val = 16 ∧ State.reset.sp.val = 0 := by
  decide

theorem witness_CallThenRetRestores : ({ State.reset with sp := 15 } : State).sp.val < 16 := by decide

/-! In the five flag instructions the clause on the result needs `x` other than 0xF; the other clauses need nothing. -/

theorem witness_AddSetsCarry : (0xE : Nibble) ≠ 0xF ∧
    after (step (startWith [0x8E, 0x24] [(0xE, 0xFF), (2, 0x01)])) (fun t => t.reg 0xE == 0 && t.reg 0xF == 1) = true := by decide

theorem witness_SubSetsGreater : (0xE : Nibble) ≠ 0xF ∧
    after (step (startWith [0x8E, 0x25] [(0xE, 0x00), (2, 0x01)])) (fun t => t.reg 0xE == 0xFF && t.reg 0xF == 0) = true := by decide

theorem witness_ShrHalves : (0xE : Nibble) ≠ 0xF ∧
    after (step (startWith [0x8E, 0x26] [(0xE, 0x01)])) (fun t => t.reg 0xE == 0 && t.reg 0xF == 1) = true := by decide

theorem witness_SubnSetsGreater : (0xE : Nibble) ≠ 0xF ∧
    after (step (startWith [0x8E, 0x27] [(0xE, 0x01), (2, 0x00)])) (fun t => t.reg 0xE == 0xFF && t.reg 0xF == 0) = true := by decide

theorem witness_ShlDoubles : (0xE : Nibble) ≠ 0xF ∧
    after (step (startWith [0x8E, 0x28] [(0xE, 0x80)])) (fun t => t.reg 0xE == 0 && t.reg 0xF == 1) = true := by decide

theorem witness_OnlyRndReadsRandomSource :
    (∀ x kk, Instr.ldVxKk 1 2 ≠ .rndVxKk x kk) ∧ exec (.ldVxKk 1 2) State.reset = .next (State.reset.setReg 1 2) :=
  ⟨fun _ _ h => (by cases h), rfl⟩

theorem witness_BcdStoresDigits : ({ State.reset with i := 0xFFD } : State).i.toNat + 2 ≤ 0xFFF := by decide

theorem witness_RegistersStored : ({ State.reset with i := 0xFF0 } : State).i.toNat + (0xF : Nibble).toNat ≤ 0xFFF := by
  decide

theorem witness_RegistersLoaded : ({ State.reset with i := 0xFFF } : State).i.toNat + (0x0 : Nibble).toNat ≤ 0xFFF := by
  decide

theorem witness_StoreThenLoadRestoresRegisters :
    let s := { startWith [] [(0, 0x12), (1, 0x34)] with i := 0x300 }
    let t := s.storeBytes 0x300 (s.regsTo 1)
    let u := { State.reset with mem := t.mem, i := t.i }
    s.Running ∧ t.Running ∧ exec (.ldMemVx 1) s = .next t ∧ (∀ a, u.readByte a = t.readByte a) ∧ u.i = t.i :=
  ⟨rfl, rfl, rfl, fun _ => rfl, rfl⟩

/-- Each of the four accesses, one byte too far. -/
theorem witness_OutOfRangeAccessChangesNothing :
    (0 < (0x2 : Nibble).toNat ∧ ({ State.reset with i := 0xFFF } : State).i.toNat + (0x2 : Nibble).toNat - 1 > 0xFFF) ∧
    ({ State.reset with i := 0xFFE } : State).i.toNat + 2 > 0xFFF ∧
    ({ State.reset with i := 0xFFF } : State).i.toNat + (0x1 : Nibble).toNat > 0xFFF ∧
    ({ State.reset with i := 0x1000 } : State).i.toNat + (0x0 : Nibble).toNat > 0xFFF := by decide

theorem witness_StoreIsSeenByNextFetch :
    let s := { startWith [0xF1, 0x55] [(0, 0x12), (1, 0x0A)] with i := 0x202 }
    s.Running ∧ s.pc.toNat ≤ 0xFFC ∧ 1 ≤ (0x1 : Nibble).toNat ∧ s.i.toNat + (0x1 : Nibble).toNat ≤ 0xFFF ∧
      s.i.toNat = s.pc.toNat + 2 ∧ decodeWord s.shlSel s.fetchWord = some (.ldMemVx 0x1) := by decide

/-- No rows, with `I` outside memory; and a sprite whose last row is the last byte of memory. -/
theorem witness_DrawXorsSprite :
    (0x0 : Nibble).toNat = 0 ∧
    ({ State.reset with i := 0xFFE } : State).i.toNat + (0x2 : Nibble).toNat - 1 ≤ 0xFFF := by decide

theorem witness_DrawTwiceRestoresPixels :
    let s := { (startWith [] [(0, 5), (1, 7)]).storeBytes 0x300 [0x80] with i := 0x300 }
    let t := drwEffect 0 1 1 s
    s.Running ∧ t.Running ∧ (0x0 : Nibble) ≠ 0xF ∧ (0x1 : Nibble) ≠ 0xF ∧
      exec (.drwVxVyN 0 1 1) s = .next t ∧ exec (.drwVxVyN 0 1 1) t = .next (drwEffect 0 1 1 t) :=
  ⟨rfl, rfl, by decide, by decide, rfl, rfl⟩

theorem witness_KeySkips :
    (State.reset.reg 2).toNat = (0 : Fin 16).val ∧ ((startWith [] [(2, 15)]).reg 2).toNat = (15 : Fin 16).val := by decide

theorem witness_KeyIndexOutOfRangeIsFatal :
    ((startWith [] [(2, 16)]).reg 2).toNat > 15 ∧ ((startWith [] [(2, 0xFF)]).reg 2).toNat > 15 := by decide

/-- The least pressed key; and no key. -/
theorem witness_KeyWaitTakesLowestKey :
    ((press (press State.reset 15) 14).keyDown 14 = true ∧
      ∀ j : Fin 16, (press (press State.reset 15) 14).keyDown j = true → 14 ≤ j) ∧
    ∀ k : Fin 16, State.reset.keyDown k = false := by decide

theorem witness_KeyWaitWithoutKeyIsFixedPoint :
    let s := startWith [0xF0, 0x0A] []
    s.Running ∧ s.pc.toNat ≤ 0xFFE ∧ decodeWord s.shlSel s.fetchWord = some (.ldVxK 0) ∧
      ∀ k : Fin 16, s.keyDown k = false := by decide

/-- RESET from a state that is not the reset state, and the reset state itself. -/
theorem witness_ResetZeroesEverything :
    (transact .reset { State.reset with halt := .memRange, dt := 9 }).2 = State.reset := by decide

/-- The largest image that is accepted, and the smallest that is not. -/
theorem witness_LoadCopiesOrRejects :
    State.reset.Running ∧ (List.replicate 3584 (0 : Byte)).length ≤ 3584 ∧
    3584 < (List.replicate 3585 (0 : Byte)).length :=
  ⟨rfl, (List.length_replicate).le, by rw [List.length_replicate]; decide⟩

theorem witness_PreloadCopies : State.reset.Running ∧ 0 < 512 ∧ 511 < 512 := by decide

theorem witness_TickLowersTimers : ({ State.reset with dt := 0xFF, st := 0 } : State).Running := by decide

theorem witness_TimerRunsDown : ({ State.reset with dt := 0xFF, st := 1 } : State).Running := by decide

theorem witness_SetKeySetsOneLevel : State.reset.Running ∧ 15 ≤ 15 ∧ 15 < 16 := by decide

theorem witness_StepKeepsInvariant : State.reset.Inv ∧ step State.reset = .next State.reset.advance :=
  ⟨⟨rfl, by decide, by decide⟩, rfl⟩

theorem witness_EveryInterleavingKeepsInvariant : State.reset.Inv := ⟨rfl, by decide, by decide⟩

/-- A step that changes `DT`, one that changes `ST`, one that sets the latch. -/
theorem witness_StepLeavesHostStateAlone :
    after (step (startWith [0xF1, 0x15] [(1, 0x3C)])) (fun t => t.dt != 0) = true ∧
    after (step (startWith [0xF1, 0x18] [(1, 5)])) (fun t => t.st != 0) = true ∧
    after (step (startWith [0x00, 0xEE] [])) (fun t => t.halt != .running) = true := by decide

theorem witness_WritesOnlyWhatTheEntryNames :
    exec (.ldVxKk 1 2) State.reset = .next (State.reset.setReg 1 2) ∧ (State.reset.setReg 1 2).reg 1 ≠ State.reset.reg 1 :=
  ⟨rfl, by decide⟩

theorem witness_NoInstructionReadsSoundTimer :
    exec (.ldStVx 1) State.reset = .next (State.reset.setSt 0) ∧ exec .cls State.reset = .next (State.reset.setFb fbClear) :=
  ⟨rfl, rfl⟩

theorem witness_JumpToSelfIsFinished :
    let s := startWith [0x12, 0x00] []
    s.Running ∧ s.pc.toNat ≤ 0xFFE ∧ s.pc.toNat = (0x200 : Addr).toNat ∧
      decodeWord s.shlSel s.fetchWord = some (.jp 0x200) := by decide

/-! Words that meet the hypothesis of each encoding clause. -/

theorem witness_RetPops_encoding :
    (0x00EE : Word) &&& 0xFFFF = 0x00EE := by decide

theorem witness_CallPushes_encoding :
    (0x2AB7 : Word) &&& 0xF000 = 0x2000 := by decide

theorem witness_JumpSetsPc_encoding :
    (0x1AB7 : Word) &&& 0xF000 = 0x1000 := by decide

theorem witness_IndexedJumpAddsV0_encoding :
    (0xBAB7 : Word) &&& 0xF000 = 0xB000 := by decide

theorem witness_ConditionalSkips_encoding :
    (0x3AB7 : Word) &&& 0xF000 = 0x3000 ∧
    (0x4AB7 : Word) &&& 0xF000 = 0x4000 ∧
    (0x5AB0 : Word) &&& 0xF00F = 0x5000 ∧
    (0x9AB0 : Word) &&& 0xF00F = 0x9000 ∧
    (fieldN3 0x5AB1 ∈ ([0x5, 0x9] : List Nibble) ∧ fieldN 0x5AB1 ≠ 0x0) := by decide

theorem witness_LoadAndAddImmediate_encoding :
    (0x6AB7 : Word) &&& 0xF000 = 0x6000 ∧
    (0x7AB7 : Word) &&& 0xF000 = 0x7000 ∧
    (0x8AB0 : Word) &&& 0xF00F = 0x8000 := by decide

theorem witness_LogicIsBitwise_encoding :
    (0x8AB1 : Word) &&& 0xF00F = 0x8001 ∧
    (0x8AB2 : Word) &&& 0xF00F = 0x8002 ∧
    (0x8AB3 : Word) &&& 0xF00F = 0x8003 := by decide

theorem witness_AddSetsCarry_encoding :
    (0x8AB4 : Word) &&& 0xF00F = 0x8004 := by decide

theorem witness_SubSetsGreater_encoding :
    (0x8AB5 : Word) &&& 0xF00F = 0x8005 := by decide

theorem witness_ShrHalves_encoding :
    (0x8AB6 : Word) &&& 0xF00F = 0x8006 := by decide

theorem witness_SubnSetsGreater_encoding :
    (0x8AB7 : Word) &&& 0xF00F = 0x8007 := by decide

theorem witness_RandomIsMasked_encoding :
    (0xCAB7 : Word) &&& 0xF000 = 0xC000 := by decide

theorem witness_LoadIndexSetsI_encoding :
    (0xAAB7 : Word) &&& 0xF000 = 0xA000 := by decide

theorem witness_AddIndexWraps_encoding :
    (0xFA1E : Word) &&& 0xF0FF = 0xF01E := by decide

theorem witness_GlyphAddressSetsI_encoding :
    (0xFA29 : Word) &&& 0xF0FF = 0xF029 := by decide

theorem witness_BcdStoresDigits_encoding :
    (0xFA33 : Word) &&& 0xF0FF = 0xF033 := by decide

theorem witness_RegistersStored_encoding :
    (0xFA55 : Word) &&& 0xF0FF = 0xF055 := by decide

theorem witness_RegistersLoaded_encoding :
    (0xFA65 : Word) &&& 0xF0FF = 0xF065 := by decide

theorem witness_ClearTurnsPixelsOff_encoding :
    (0x00E0 : Word) &&& 0xFFFF = 0x00E0 := by decide

theorem witness_DrawXorsSprite_encoding :
    (0xDAB7 : Word) &&& 0xF000 = 0xD000 := by decide

theorem witness_KeySkips_encoding :
    (0xEA9E : Word) &&& 0xF0FF = 0xE09E ∧
    (0xEAA1 : Word) &&& 0xF0FF = 0xE0A1 := by decide

theorem witness_TimerMoves_encoding :
    (0xFA07 : Word) &&& 0xF0FF = 0xF007 ∧
    (0xFA15 : Word) &&& 0xF0FF = 0xF015 ∧
    (0xFA18 : Word) &&& 0xF0FF = 0xF018 := by decide

theorem witness_KeyWaitTakesLowestKey_encoding :
    (0xFA0A : Word) &&& 0xF0FF = 0xF00A := by decide

theorem witness_ShlDoubles_encoding :
    (0x8AB8 : Word) &&& 0xF00F = ShlSel.pattern .eight ∧
    (0x8ABE : Word) &&& 0xF00F = ShlSel.pattern .e := by decide

end Sys2Proof.Tests
end

/-! PROOFS. Jumps and conditional skips (41_control_flow.md R90, R92, R94 to R98). Each of them is one write of `PC`,
so the frame of a `PC` write is proved once; what differs is the value written. -/

namespace Sys2Proof.Machine

/-! ### Widened operands -/

@[simp] theorem zextAddr_toNat (nnn : Addr) : (zextAddr nnn).toNat = nnn.toNat :=
  BitVec.toNat_setWidth_of_le (by omega)

@[simp] theorem zextByte_toNat (b : Byte) : (zextByte b).toNat = b.toNat :=
  BitVec.toNat_setWidth_of_le (by omega)

/-- A byte and an address are together at most 0x10FE, so their 16-bit sum does not wrap (10_state.md R30). -/
theorem zextByte_add_zextAddr_toNat (b : Byte) (nnn : Addr) :
    (zextByte b + zextAddr nnn).toNat = b.toNat + nnn.toNat := by
  have hb := b.isLt
  have hn := nnn.isLt
  rw [BitVec.toNat_add, zextByte_toNat, zextAddr_toNat]
  omega

/-! ### Writes of the program counter -/

theorem unchanged_setPc (s : State) (w : Word) : Unchanged [.pc] s (s.setPc w) := by
  intro p hp
  cases p
  case pc => simp at hp
  all_goals simp [Part.Same]

/-- Skipping or not, a conditional skip is one write of `PC` (41_control_flow.md R90). -/
theorem skipIf_eq_setPc (s : State) (c : Bool) : s.skipIf c = s.setPc (if c then s.pc + 2 else s.pc) := by
  cases c <;> rfl

theorem unchanged_skipIf (s : State) (c : Bool) : Unchanged [.pc] s (s.skipIf c) :=
  skipIf_eq_setPc s c ▸ unchanged_setPc s _

/-- SE compares all 8 bits of its operands as unsigned numbers (41_control_flow.md R94). -/
theorem skipIf_beq_pc (s : State) (a b : Byte) :
    (s.skipIf (a == b)).pc = if a.toNat = b.toNat then s.pc + 2 else s.pc := by
  simp [BitVec.toNat_inj]

/-- SNE skips in exactly the other cases (41_control_flow.md R95). -/
theorem skipIf_bne_pc (s : State) (a b : Byte) :
    (s.skipIf (a != b)).pc = if a.toNat = b.toNat then s.pc else s.pc + 2 := by
  simp [BitVec.toNat_inj]

/-! ### Register skips with another trailing nibble -/

/-- A `5xyn` or `9xyn` whose trailing nibble is not 0 is no instruction (41_control_flow.md R96, R97). -/
theorem decodeWord_registerSkip_eq_none (sel : ShlSel) (op : Word) (h3 : fieldN3 op ∈ [0x5, 0x9])
    (hn : fieldN op ≠ 0x0) : decodeWord sel op = none := by
  have h : fieldN3 op = 0x5 ∨ fieldN3 op = 0x9 := by simpa using h3
  obtain h | h := h <;> simp only [decodeWord, h] <;> exact if_neg hn

/-! ### The obligations -/

/-- Settles O17: JP writes the zero-extended address to `PC` and nothing else. -/
theorem jumpSetsPc : Obligations.JumpSetsPc := by
  obtain ⟨hJp, -⟩ := encoded_F000
  exact ⟨hJp, fun s nnn => ⟨_, rfl, zextAddr_toNat nnn, unchanged_setPc s _⟩⟩

/-- Settles O18: the sum written to `PC` cannot wrap at 16 bits, so it is the sum of the numbers. -/
theorem indexedJumpAddsV0 : Obligations.IndexedJumpAddsV0 := by
  obtain ⟨-, -, -, -, -, -, -, hJpV0, -⟩ := encoded_F000
  exact ⟨hJpV0, fun s nnn => ⟨_, rfl, zextByte_add_zextAddr_toNat (s.reg 0) nnn, unchanged_setPc s _⟩⟩

/-- Settles O19: each form is `skipIf` on equality or inequality of its operands. -/
theorem conditionalSkips : Obligations.ConditionalSkips := by
  obtain ⟨-, -, hSeKk, hSneKk, -⟩ := encoded_F000
  obtain ⟨hSe, -, -, -, -, -, -, -, -, hSne⟩ := encoded_F00F
  refine ⟨hSeKk, hSneKk, hSe, hSne, decodeWord_registerSkip_eq_none, fun s x y kk => ⟨?_, ?_, ?_, ?_⟩⟩
  · exact ⟨_, rfl, skipIf_beq_pc s (s.reg x) kk, unchanged_skipIf s _⟩
  · exact ⟨_, rfl, skipIf_bne_pc s (s.reg x) kk, unchanged_skipIf s _⟩
  · exact ⟨_, rfl, skipIf_beq_pc s (s.reg x) (s.reg y), unchanged_skipIf s _⟩
  · exact ⟨_, rfl, skipIf_bne_pc s (s.reg x) (s.reg y), unchanged_skipIf s _⟩

end Sys2Proof.Machine

/-! PROOFS. Register load, 8-bit ALU and random (42_load_alu.md R102 to R115). Each instruction is one register write,
or a result with its flag, so the frames of these two writes are proved once; what differs is the arithmetic of the
byte written. -/

namespace Sys2Proof.Machine

/-! ### Frames, composed -/

theorem Part.Same.trans {p : Part} {s t u : State} (hst : p.Same s t) (htu : p.Same t u) : p.Same s u := by
  cases p
  case mem | v | stack | key => exact fun a => (htu a).trans (hst a)
  case fb => exact fun x y => (htu x y).trans (hst x y)
  all_goals exact Eq.trans htu hst

theorem Unchanged.trans {ps : List Part} {s t u : State} (hst : Unchanged ps s t) (htu : Unchanged ps t u) :
    Unchanged ps s u :=
  fun p hp => (hst p hp).trans (htu p hp)

theorem Unchanged.mono {ps qs : List Part} {s t : State} (hsub : ps ⊆ qs) (h : Unchanged ps s t) :
    Unchanged qs s t :=
  fun p hp => h p fun hps => hp (hsub hps)

/-! ### The frames of register writes and of a draw -/

theorem unchanged_setReg (s : State) (x : Nibble) (b : Byte) : Unchanged [.v] s (s.setReg x b) := by
  intro p hp
  cases p
  case v => simp at hp
  all_goals simp [Part.Same]

theorem unchanged_countDraw (s : State) : Unchanged [.draws] s s.countDraw := by
  intro p hp
  cases p
  case draws => simp at hp
  all_goals simp [Part.Same]

theorem regsKept_setReg (s : State) (x : Nibble) (b : Byte) : RegsKept [x] s (s.setReg x b) := by
  intro y hy
  rw [reg_setReg, if_neg (mt List.mem_singleton.2 hy)]

theorem writesReg_setReg (s : State) (x : Nibble) (b : Byte) : WritesReg x s (s.setReg x b) :=
  ⟨regsKept_setReg s x b, unchanged_setReg s x b⟩

theorem writesRegAndFlag_setRegFlag (s : State) (x : Nibble) (r : Byte) (f : Bool) :
    WritesRegAndFlag x s (s.setRegFlag x r f) := by
  refine ⟨fun y hy => ?_, (unchanged_setReg s x r).trans (unchanged_setReg (s.setReg x r) vf (flagByte f))⟩
  obtain ⟨hx, hvf⟩ : y ≠ x ∧ y ≠ vf := by simpa using hy
  rw [reg_setRegFlag, if_neg hvf, if_neg hx]

/-- What a flag producing instruction leaves, whichever way the result is read as a number: the result in `V[x]` unless
`x` is VF, the flag in VF whatever `x` is, and the rest as it was (42_load_alu.md R102). -/
theorem setRegFlag_spec {α : Type} (value : Byte → α) (s : State) (x : Nibble) {r : Byte} {f : Bool} {n : α} {m : Nat}
    (hr : value r = n) (hf : (flagByte f).toNat = m) :
    (x ≠ 0xF → value ((s.setRegFlag x r f).reg x) = n) ∧ ((s.setRegFlag x r f).reg 0xF).toNat = m ∧
      WritesRegAndFlag x s (s.setRegFlag x r f) := by
  refine ⟨fun hx => ?_, ?_, writesRegAndFlag_setRegFlag s x r f⟩
  · rw [reg_setRegFlag_dest s x r f hx, hr]
  · rw [reg_setRegFlag_vf, hf]

/-! ### The arithmetic of results and flags -/

/-- The wrapped difference, as SUB and SUBN give it (42_load_alu.md R110, R112). -/
theorem byte_sub_toNat (a b : Byte) : ((a - b).toNat : Int) = ((a.toNat : Int) - b.toNat) % 256 := by
  have hb := b.isLt
  rw [BitVec.toNat_sub]
  omega

theorem byte_shiftRight_one_toNat (a : Byte) : (a >>> 1).toNat = a.toNat / 2 := by
  rw [BitVec.toNat_ushiftRight, Nat.shiftRight_eq_div_pow, pow_one]

theorem byte_shiftLeft_one_toNat (a : Byte) : (a <<< 1).toNat = 2 * a.toNat % 256 := by
  rw [BitVec.toNat_shiftLeft, Nat.shiftLeft_eq, pow_one, Nat.mul_comm]

theorem addFlag_toNat (a b : Byte) :
    (flagByte (addFlag a b)).toNat = if a.toNat + b.toNat ≥ 256 then 1 else 0 := by
  simp [flagByte_toNat, addFlag]

theorem subFlag_toNat (a b : Byte) : (flagByte (subFlag a b)).toNat = if a.toNat > b.toNat then 1 else 0 := by
  simp [flagByte_toNat, subFlag]

/-- The bit SHR shifts out is the remainder of the halving (42_load_alu.md R111). -/
theorem shrFlag_toNat (a : Byte) : (flagByte (shrFlag a)).toNat = a.toNat % 2 := by
  have hbit : shrFlag a = decide (a.toNat % 2 = 1) := Nat.testBit_zero _
  rw [flagByte_toNat, hbit]
  obtain h | h := Nat.mod_two_eq_zero_or_one a.toNat <;> simp [h]

/-- The bit SHL shifts out is set exactly from 128 on (42_load_alu.md R113). -/
theorem shlFlag_toNat (a : Byte) : (flagByte (shlFlag a)).toNat = a.toNat / 128 := by
  have hbit : shlFlag a = decide (128 ≤ a.toNat) := BitVec.msb_eq_decide a
  have hlt := a.isLt
  rw [flagByte_toNat, hbit]
  simp only [decide_eq_true_eq]
  split <;> omega

/-! ### The obligations -/

/-- Settles O20: each form is one register write, of the immediate, of the wrapped sum and of `V[y]`. -/
theorem loadAndAddImmediate : Obligations.LoadAndAddImmediate := by
  obtain ⟨-, -, -, -, hLdKk, hAddKk, -⟩ := encoded_F000
  obtain ⟨-, hLd, -⟩ := encoded_F00F
  refine ⟨hLdKk, hAddKk, hLd, fun s x y kk => ⟨?_, ?_, ?_⟩⟩
  · exact ⟨_, rfl, reg_setReg_self s x kk, writesReg_setReg s x _⟩
  · exact ⟨_, rfl, by rw [reg_setReg_self, BitVec.toNat_add], writesReg_setReg s x _⟩
  · exact ⟨_, rfl, reg_setReg_self s x (s.reg y), writesReg_setReg s x _⟩

/-- Settles O21: each form is one register write, of a bitwise operation on the old operands. -/
theorem logicIsBitwise : Obligations.LogicIsBitwise := by
  obtain ⟨-, -, hOr, hAnd, hXor, -⟩ := encoded_F00F
  refine ⟨hOr, hAnd, hXor, fun s x y => ⟨?_, ?_, ?_⟩⟩
  · exact ⟨_, rfl, fun k => by rw [reg_setReg_self, BitVec.getLsbD_or], writesReg_setReg s x _⟩
  · exact ⟨_, rfl, fun k => by rw [reg_setReg_self, BitVec.getLsbD_and], writesReg_setReg s x _⟩
  · exact ⟨_, rfl, fun k => by rw [reg_setReg_self, BitVec.getLsbD_xor], writesReg_setReg s x _⟩

/-- Settles O22: the sum wraps at 8 bits, and its carry is written last. -/
theorem addSetsCarry : Obligations.AddSetsCarry := by
  obtain ⟨-, -, -, -, -, hAdd, -⟩ := encoded_F00F
  exact ⟨hAdd, fun s x y => ⟨_, rfl, setRegFlag_spec BitVec.toNat s x (BitVec.toNat_add _ _) (addFlag_toNat _ _)⟩⟩

/-- Settles O23: the difference wraps at 8 bits, and the strict comparison is written last. -/
theorem subSetsGreater : Obligations.SubSetsGreater := by
  obtain ⟨-, -, -, -, -, -, hSub, -⟩ := encoded_F00F
  exact ⟨hSub, fun s x y =>
    ⟨_, rfl, setRegFlag_spec (fun b => (b.toNat : Int)) s x (byte_sub_toNat _ _) (subFlag_toNat _ _)⟩⟩

/-- Settles O24: quotient and remainder of the old `V[x]` by 2, the remainder written last. -/
theorem shrHalves : Obligations.ShrHalves := by
  obtain ⟨-, -, -, -, -, -, -, hShr, -⟩ := encoded_F00F
  exact ⟨hShr, fun s x _ => ⟨_, rfl, setRegFlag_spec BitVec.toNat s x (byte_shiftRight_one_toNat _) (shrFlag_toNat _)⟩⟩

/-- Settles O25: SUB with its operands exchanged. -/
theorem subnSetsGreater : Obligations.SubnSetsGreater := by
  obtain ⟨-, -, -, -, -, -, -, -, hSubn, -⟩ := encoded_F00F
  exact ⟨hSubn, fun s x y =>
    ⟨_, rfl, setRegFlag_spec (fun b => (b.toNat : Int)) s x (byte_sub_toNat _ _) (subFlag_toNat _ _)⟩⟩

/-- Settles O26: twice the old `V[x]` wraps at 8 bits, and the bit lost is written last. -/
theorem shlDoubles : Obligations.ShlDoubles :=
  ⟨encoded_shlVx, fun s x _ =>
    ⟨_, rfl, setRegFlag_spec BitVec.toNat s x (byte_shiftLeft_one_toNat _) (shlFlag_toNat _)⟩⟩

/-- Settles O27: one draw is counted, then one register is written, with the byte masked. -/
theorem randomIsMasked : Obligations.RandomIsMasked := by
  obtain ⟨-, -, -, -, -, -, -, -, hRnd, -⟩ := encoded_F000
  refine ⟨hRnd, fun s x kk => ⟨_, rfl, fun k => ?_, rfl, regsKept_setReg s.countDraw x _, ?_⟩⟩
  · rw [rndWith, reg_setReg_self, BitVec.getLsbD_and, State.drawnByte]
  · have hDraw : Unchanged [.v, .draws] s s.countDraw := (unchanged_countDraw s).mono (by simp)
    exact hDraw.trans ((unchanged_setReg s.countDraw x _).mono (by simp))

end Sys2Proof.Machine

/-! PROOFS. Index register (43_index_memory.md R120). LD I is one write of `I`, so the frame of an `I` write is proved
once; the value written is the zero-extended address. -/

namespace Sys2Proof.Machine

/-! ### The frame of an index write -/

theorem unchanged_setI (s : State) (w : Word) : Unchanged [.i] s (s.setI w) := by
  intro p hp
  cases p
  case i => simp at hp
  all_goals simp [Part.Same]

/-! ### The obligation -/

/-- Settles O29: LD I writes the zero-extended address to `I` and nothing else. -/
theorem loadIndexSetsI : Obligations.LoadIndexSetsI := by
  obtain ⟨-, -, -, -, -, -, hLdI, -⟩ := encoded_F000
  exact ⟨hLdI, fun s nnn => ⟨_, rfl, zextAddr_toNat nnn, unchanged_setI s _⟩⟩

end Sys2Proof.Machine

/-! PROOFS. Display (44_display.md R132, R133). CLS is one write of `FB`, so the frame of an `FB` write is proved once;
`fb_set` is settled from the two laws that say what it answers and which pixel it changes. -/

namespace Sys2Proof.Machine

/-! ### The frame of a framebuffer write -/

theorem unchanged_setFb (s : State) (fb : Framebuffer) : Unchanged [.fb] s (s.setFb fb) := by
  intro p hp
  cases p
  case fb => simp at hp
  all_goals simp [Part.Same]

/-! ### The obligations -/

/-- Settles O38: CLS writes the cleared framebuffer and nothing else. -/
theorem clearTurnsPixelsOff : Obligations.ClearTurnsPixelsOff := by
  obtain ⟨hCls, -⟩ := encoded_FFFF
  exact ⟨hCls, fun s => ⟨_, rfl, fbGet_fbClear, unchanged_setFb s fbClear⟩⟩

/-- Settles O39: the collision is read from the old pixel; XOR with the bit is restricted to the addressed pixel. -/
theorem setPixelXorsOnePixel : Obligations.SetPixelXorsOnePixel := by
  intro fb x z y w on
  constructor
  · rw [fbSet_collision, Bool.and_eq_true]
  · rw [fbGet_fbSet]
    by_cases h : z = x ∧ w = y
    · obtain ⟨rfl, rfl⟩ := h
      simp
    · have hoff : (on && decide (z = x) && decide (w = y)) = false := by
        rw [Bool.and_assoc, ← Bool.decide_and, decide_eq_false h, Bool.and_false]
      rw [if_neg h, hoff, Bool.xor_false]

end Sys2Proof.Machine

/-! PROOFS. Keypad and timer instructions (45_keys_timers.md R143 to R146). The timer moves are single writes, so the
frames of the two timer writes are proved once; the key wait turns on what the scan of the keys answers. -/

namespace Sys2Proof.Machine

/-! ### The frames of timer writes -/

theorem unchanged_setDt (s : State) (b : Byte) : Unchanged [.dt] s (s.setDt b) := by
  intro p hp
  cases p
  case dt => simp at hp
  all_goals simp [Part.Same]

theorem unchanged_setSt (s : State) (b : Byte) : Unchanged [.st] s (s.setSt b) := by
  intro p hp
  cases p
  case st => simp at hp
  all_goals simp [Part.Same]

/-! ### The scan for the lowest pressed key -/

/-- The keys are scanned in rising order, so the first one found pressed is the least (45_keys_timers.md R144). -/
theorem lowestKey_eq_some_iff (s : State) (k : Fin 16) :
    s.lowestKey = some k ↔ s.keyDown k = true ∧ ∀ j : Fin 16, s.keyDown j = true → k ≤ j := by
  rw [State.lowestKey, List.find?_eq_some_iff_getElem]
  refine and_congr_right fun _ => ⟨?_, fun hleast => ?_⟩
  · rintro ⟨i, hi, rfl, hbefore⟩ j hj
    by_contra hlt
    have hlt : j.val < i := by simpa [Fin.lt_def] using hlt
    simpa [hj] using hbefore j.val hlt
  · refine ⟨k.val, by simp, by simp, fun j hj => ?_⟩
    have hup : s.keyDown ⟨j, hj.trans k.isLt⟩ ≠ true := fun hdown => absurd (hleast _ hdown) (not_le_of_gt hj)
    simpa using hup

theorem lowestKey_eq_none_iff (s : State) : s.lowestKey = none ↔ ∀ k : Fin 16, s.keyDown k = false := by
  simp [State.lowestKey]

/-! ### The two outcomes of a key wait -/

theorem exec_ldVxK_of_lowestKey_eq_some {s : State} {k : Fin 16} (x : Nibble) (h : s.lowestKey = some k) :
    exec (.ldVxK x) s = .next (s.setReg x (BitVec.ofNat 8 k.val)) := by
  simp only [exec, execLdVxK, h]

theorem exec_ldVxK_of_lowestKey_eq_none {s : State} (x : Nibble) (h : s.lowestKey = none) :
    exec (.ldVxK x) s = .next (s.setPc (s.pc - 2)) := by
  simp only [exec, execLdVxK, h]

/-- A key index fits in a byte. -/
theorem keyByte_toNat (k : Fin 16) : (BitVec.ofNat 8 k.val).toNat = k.val :=
  Nat.mod_eq_of_lt (k.isLt.trans (by decide))

/-! ### The obligations -/

/-- Settles O44: each form is one write, of a register or of a timer. -/
theorem timerMoves : Obligations.TimerMoves := by
  obtain ⟨-, -, hLdVxDt, -, hLdDtVx, hLdStVx, -⟩ := encoded_F0FF
  refine ⟨hLdVxDt, hLdDtVx, hLdStVx, fun s x => ⟨?_, ?_, ?_⟩⟩
  · exact ⟨_, rfl, reg_setReg_self s x s.dt, writesReg_setReg s x s.dt⟩
  · exact ⟨_, rfl, State.setDt_dt s (s.reg x), unchanged_setDt s (s.reg x)⟩
  · exact ⟨_, rfl, State.setSt_st s (s.reg x), unchanged_setSt s (s.reg x)⟩

/-- Settles O45: the scan answers the least pressed key, which is written to `V[x]`, or none, and `PC` is rewound. -/
theorem keyWaitTakesLowestKey : Obligations.KeyWaitTakesLowestKey := by
  obtain ⟨-, -, -, hLdVxK, -⟩ := encoded_F0FF
  refine ⟨hLdVxK, fun s x => ⟨fun k hdown hleast => ?_, fun hup => ?_⟩⟩
  · have hscan : s.lowestKey = some k := (lowestKey_eq_some_iff s k).2 ⟨hdown, hleast⟩
    exact ⟨_, exec_ldVxK_of_lowestKey_eq_some x hscan, by rw [reg_setReg_self, keyByte_toNat],
      writesReg_setReg s x _⟩
  · have hscan : s.lowestKey = none := (lowestKey_eq_none_iff s).2 hup
    exact ⟨_, exec_ldVxK_of_lowestKey_eq_none x hscan, State.setPc_pc s _, unchanged_setPc s _⟩

end Sys2Proof.Machine

/-! PROOFS. The decoder against the encoder and against the opcode map (30_encoding.md R60 to R69). Each direction goes
format by format: the fields of an encoded word are its operands, and a word is its fields put together. -/

namespace Sys2Proof.Machine

/-! ### From an instruction to its word and back -/

/-- The decoder gives an encoded instruction back: the word's fields are the instruction's operands, and its fixed
fields choose the instruction's row (30_encoding.md R61, R66, R67). -/
theorem decodeWord_encodeWord (sel : ShlSel) (i : Instr) : decodeWord sel (encodeWord sel i) = some i := by
  cases i
  case cls => cases sel <;> rfl
  case ret => cases sel <;> rfl
  case shlVx x y => cases sel <;> simp [encodeWord, decodeWord, decodeAlu, ShlSel.nibble]
  all_goals simp [encodeWord, decodeWord, decodeAlu, decodeKey, decodeMisc]

/-! ### From a word to its instruction and back -/

theorem encodeWord_of_decodeFixed (sel : ShlSel) {op : Word} {i : Instr} (h : decodeFixed op = some i) :
    encodeWord sel i = op := by
  unfold decodeFixed at h
  split_ifs at h with h0 h1 <;> cases h <;> exact Eq.symm ‹_›

/-- The register skips, whose trailing nibble must be 0 (30_encoding.md R66 rows 7 and 8). -/
theorem encodeWord_of_decodeSkip {sel : ShlSel} {a x y n : Nibble} {i : Instr} {op : Word}
    (skip : Nibble → Nibble → Instr) (henc : ∀ x y, encodeWord sel (skip x y) = joinXyn a x y 0x0#4)
    (h : (if n = 0x0 then some (skip x y) else none) = some i) (hop : joinXyn a x y n = op) :
    encodeWord sel i = op := by
  split_ifs at h with hn
  cases h
  rw [henc, ← hop, hn]
  rfl

theorem encodeWord_of_decodeAlu {sel : ShlSel} {x y n : Nibble} {i : Instr} (h : decodeAlu sel x y n = some i) :
    encodeWord sel i = joinXyn 0x8#4 x y n := by
  unfold decodeAlu at h
  split_ifs at h <;> cases h <;> subst n <;> rfl

theorem encodeWord_of_decodeKey (sel : ShlSel) {x : Nibble} {kk : Byte} {i : Instr} (h : decodeKey x kk = some i) :
    encodeWord sel i = joinXkk 0xE#4 x kk := by
  unfold decodeKey at h
  split_ifs at h <;> cases h <;> subst kk <;> rfl

theorem encodeWord_of_decodeMisc (sel : ShlSel) {x : Nibble} {kk : Byte} {i : Instr} (h : decodeMisc x kk = some i) :
    encodeWord sel i = joinXkk 0xF#4 x kk := by
  unfold decodeMisc at h
  split_ifs at h <;> cases h <;> subst kk <;> rfl

/-- A word with leading nibble `a`, put together again from its fields in each of the three formats
(30_encoding.md R61). -/
theorem join_fields {op : Word} {a : Nibble} (h : fieldN3 op = a) :
    joinNnn a (fieldNnn op) = op ∧ joinXkk a (fieldX op) (fieldKk op) = op ∧
      joinXyn a (fieldX op) (fieldY op) (fieldN op) = op := by
  subst h
  exact ⟨joinNnn_fields op, joinXkk_fields op, joinXyn_fields op⟩

/-- No bit of a word that decodes is dropped: by the leading nibble, the instruction has all of the word's fields
(30_encoding.md R61, R65). -/
theorem encodeWord_of_decodeWord {sel : ShlSel} {op : Word} {i : Instr} (h : decodeWord sel op = some i) :
    encodeWord sel i = op := by
  obtain ⟨a, ha⟩ : ∃ a, fieldN3 op = a := ⟨_, rfl⟩
  obtain ⟨hNnn, hXkk, hXyn⟩ := join_fields ha
  obtain rfl | rfl | rfl | rfl | rfl | rfl | rfl | rfl | rfl | rfl | rfl | rfl | rfl | rfl | rfl | rfl :=
    nibble_cases a <;> simp only [decodeWord, ha] at h
  · exact encodeWord_of_decodeFixed sel h
  · cases h; exact hNnn
  · cases h; exact hNnn
  · cases h; exact hXkk
  · cases h; exact hXkk
  · exact encodeWord_of_decodeSkip (i := i) .seVxVy (fun _ _ => rfl) h hXyn
  · cases h; exact hXkk
  · cases h; exact hXkk
  · exact (encodeWord_of_decodeAlu h).trans hXyn
  · exact encodeWord_of_decodeSkip (i := i) .sneVxVy (fun _ _ => rfl) h hXyn
  · cases h; exact hNnn
  · cases h; exact hNnn
  · cases h; exact hXkk
  · cases h; exact hXyn
  · exact (encodeWord_of_decodeKey sel h).trans hXkk
  · exact (encodeWord_of_decodeMisc sel h).trans hXkk

/-! ### The unrecognised words -/

theorem decodeFixed_eq_none_iff (op : Word) : decodeFixed op = none ↔ op ≠ 0x00E0 ∧ op ≠ 0x00EE := by
  unfold decodeFixed
  split_ifs <;> simp_all

/-- In the ALU group the trailing nibbles 0 to 7 and the SHL selector have a meaning (30_encoding.md R66, R67). -/
theorem decodeAlu_eq_none_iff (sel : ShlSel) (x y n : Nibble) :
    decodeAlu sel x y n = none ↔ 8 ≤ n.toNat ∧ n ≠ sel.nibble := by
  unfold decodeAlu
  obtain rfl | rfl | rfl | rfl | rfl | rfl | rfl | rfl | rfl | rfl | rfl | rfl | rfl | rfl | rfl | rfl :=
    nibble_cases n <;> cases sel <;> simp [ShlSel.nibble]

theorem decodeKey_eq_none_iff (x : Nibble) (kk : Byte) : decodeKey x kk = none ↔ kk ∉ [0x9E, 0xA1] := by
  unfold decodeKey
  split_ifs <;> simp_all

theorem decodeMisc_eq_none_iff (x : Nibble) (kk : Byte) :
    decodeMisc x kk = none ↔ kk ∉ [0x07, 0x0A, 0x15, 0x18, 0x1E, 0x29, 0x33, 0x55, 0x65] := by
  unfold decodeMisc
  split_ifs <;> simp_all

/-- By the leading nibble: six of the sixteen groups hold words without a meaning (30_encoding.md R68). -/
theorem decodeWord_eq_none_iff (sel : ShlSel) (op : Word) :
    decodeWord sel op = none ↔
      (fieldN3 op = 0x0 ∧ op ≠ 0x00E0 ∧ op ≠ 0x00EE) ∨
      (fieldN3 op = 0x5 ∧ fieldN op ≠ 0x0) ∨
      (fieldN3 op = 0x8 ∧ 8 ≤ (fieldN op).toNat ∧ fieldN op ≠ sel.nibble) ∨
      (fieldN3 op = 0x9 ∧ fieldN op ≠ 0x0) ∨
      (fieldN3 op = 0xE ∧ fieldKk op ∉ [0x9E, 0xA1]) ∨
      (fieldN3 op = 0xF ∧ fieldKk op ∉ [0x07, 0x0A, 0x15, 0x18, 0x1E, 0x29, 0x33, 0x55, 0x65]) := by
  obtain ⟨a, ha⟩ : ∃ a, fieldN3 op = a := ⟨_, rfl⟩
  obtain rfl | rfl | rfl | rfl | rfl | rfl | rfl | rfl | rfl | rfl | rfl | rfl | rfl | rfl | rfl | rfl :=
    nibble_cases a <;>
  simp [decodeWord, ha, decodeFixed_eq_none_iff, decodeAlu_eq_none_iff, decodeKey_eq_none_iff, decodeMisc_eq_none_iff]

/-! ### The rows of the opcode map -/

/-- The word of every instruction matches a row of the map (30_encoding.md R64). -/
theorem wellFormedWord_encodeWord (sel : ShlSel) (i : Instr) : wellFormedWord sel (encodeWord sel i) = true :=
  match i with
  | .cls => Laws.Recognised.cls sel
  | .ret => Laws.Recognised.ret sel
  | .jp nnn => Laws.Recognised.jp nnn sel
  | .call nnn => Laws.Recognised.call nnn sel
  | .seVxKk x kk => Laws.Recognised.seVxKk x kk sel
  | .sneVxKk x kk => Laws.Recognised.sneVxKk x kk sel
  | .seVxVy x y => Laws.Recognised.seVxVy x y sel
  | .sneVxVy x y => Laws.Recognised.sneVxVy x y sel
  | .ldVxKk x kk => Laws.Recognised.ldVxKk x kk sel
  | .addVxKk x kk => Laws.Recognised.addVxKk x kk sel
  | .ldVxVy x y => Laws.Recognised.ldVxVy x y sel
  | .orVxVy x y => Laws.Recognised.orVxVy x y sel
  | .andVxVy x y => Laws.Recognised.andVxVy x y sel
  | .xorVxVy x y => Laws.Recognised.xorVxVy x y sel
  | .addVxVy x y => Laws.Recognised.addVxVy x y sel
  | .subVxVy x y => Laws.Recognised.subVxVy x y sel
  | .shrVx x y => Laws.Recognised.shrVx x y sel
  | .subnVxVy x y => Laws.Recognised.subnVxVy x y sel
  | .shlVx x y => Laws.Recognised.shlVx x y sel
  | .ldINnn nnn => Laws.Recognised.ldINnn nnn sel
  | .jpV0Nnn nnn => Laws.Recognised.jpV0Nnn nnn sel
  | .rndVxKk x kk => Laws.Recognised.rndVxKk x kk sel
  | .drwVxVyN x y n => Laws.Recognised.drwVxVyN x y n sel
  | .skpVx x => Laws.Recognised.skpVx x sel
  | .sknpVx x => Laws.Recognised.sknpVx x sel
  | .ldVxDt x => Laws.Recognised.ldVxDt x sel
  | .ldVxK x => Laws.Recognised.ldVxK x sel
  | .ldDtVx x => Laws.Recognised.ldDtVx x sel
  | .ldStVx x => Laws.Recognised.ldStVx x sel
  | .addIVx x => Laws.Recognised.addIVx x sel
  | .ldFVx x => Laws.Recognised.ldFVx x sel
  | .ldBVx x => Laws.Recognised.ldBVx x sel
  | .ldMemVx x => Laws.Recognised.ldMemVx x sel
  | .ldVxMem x => Laws.Recognised.ldVxMem x sel

theorem wellFormedWord_eq_true_iff (sel : ShlSel) (op : Word) :
    wellFormedWord sel op = true ↔ ∃ r ∈ opcodeMap sel, op &&& r.mask = r.pattern := by
  simp [wellFormedWord, Row.matches]

theorem Encoded.exists_decodeWord {mask pattern : Word} {i : Word → Instr} (h : Encoded mask pattern i) (sel : ShlSel)
    {op : Word} (hop : op &&& mask = pattern) : ∃ i, decodeWord sel op = some i :=
  ⟨i op, h sel op hop⟩

/-- Every row of the map is the row of an instruction (30_encoding.md R66). -/
theorem exists_decodeWord_of_row (sel : ShlSel) (op : Word) :
    ∀ r ∈ opcodeMap sel, op &&& r.mask = r.pattern → ∃ i, decodeWord sel op = some i := by
  obtain ⟨hCls, hRet⟩ := encoded_FFFF
  obtain ⟨hJp, hCall, hSeKk, hSneKk, hLdKk, hAddKk, hLdI, hJpV0, hRnd, hDrw⟩ := encoded_F000
  obtain ⟨hSe, hLd, hOr, hAnd, hXor, hAdd, hSub, hShr, hSubn, hSne⟩ := encoded_F00F
  obtain ⟨hSkp, hSknp, hLdVxDt, hLdVxK, hLdDtVx, hLdStVx, hAddI, hLdF, hLdB, hLdMem, hLdVxMem⟩ := encoded_F0FF
  have hShl (h : op &&& 0xF00F = sel.pattern) : ∃ i, decodeWord sel op = some i := ⟨_, encoded_shlVx sel op h⟩
  simp only [opcodeMap, rowsImmediate, rowsAlu, rowsRest, List.cons_append, List.nil_append, List.forall_mem_cons]
  exact ⟨hCls.exists_decodeWord sel, hRet.exists_decodeWord sel, hJp.exists_decodeWord sel,
    hCall.exists_decodeWord sel, hSeKk.exists_decodeWord sel, hSneKk.exists_decodeWord sel,
    hSe.exists_decodeWord sel, hSne.exists_decodeWord sel, hLdKk.exists_decodeWord sel,
    hAddKk.exists_decodeWord sel, hLd.exists_decodeWord sel, hOr.exists_decodeWord sel,
    hAnd.exists_decodeWord sel, hXor.exists_decodeWord sel, hAdd.exists_decodeWord sel,
    hSub.exists_decodeWord sel, hShr.exists_decodeWord sel, hSubn.exists_decodeWord sel, hShl,
    hLdI.exists_decodeWord sel, hJpV0.exists_decodeWord sel, hRnd.exists_decodeWord sel,
    hDrw.exists_decodeWord sel, hSkp.exists_decodeWord sel, hSknp.exists_decodeWord sel,
    hLdVxDt.exists_decodeWord sel, hLdVxK.exists_decodeWord sel, hLdDtVx.exists_decodeWord sel,
    hLdStVx.exists_decodeWord sel, hAddI.exists_decodeWord sel, hLdF.exists_decodeWord sel,
    hLdB.exists_decodeWord sel, hLdMem.exists_decodeWord sel, hLdVxMem.exists_decodeWord sel, by simp⟩

/-- Two rows agree on the bits both of them fix only if they are one row. -/
theorem opcodeMap_rows_disjoint (sel : ShlSel) :
    ∀ r₁ ∈ opcodeMap sel, ∀ r₂ ∈ opcodeMap sel, r₁.pattern &&& r₂.mask = r₂.pattern &&& r₁.mask → r₁ = r₂ := by
  cases sel <;> decide

/-- A word that matches two rows agrees with both patterns on the bits both rows fix, so they are one row
(30_encoding.md R64). -/
theorem row_unique (sel : ShlSel) (op : Word) {r₁ r₂ : Row} (hr₁ : r₁ ∈ opcodeMap sel) (hr₂ : r₂ ∈ opcodeMap sel)
    (h₁ : op &&& r₁.mask = r₁.pattern) (h₂ : op &&& r₂.mask = r₂.pattern) : r₁ = r₂ := by
  refine opcodeMap_rows_disjoint sel r₁ hr₁ r₂ hr₂ ?_
  calc r₁.pattern &&& r₂.mask
      = op &&& r₁.mask &&& r₂.mask := by rw [h₁]
    _ = op &&& r₂.mask &&& r₁.mask := by rw [BitVec.and_assoc, BitVec.and_comm r₁.mask, BitVec.and_assoc]
    _ = r₂.pattern &&& r₁.mask := by rw [h₂]

/-! ### The obligations -/

/-- Settles O2: the two bytes of an encoded instruction make its word again, which decodes to it. -/
theorem decodeAfterEncode : Obligations.DecodeAfterEncode := by
  intro sel i rest
  rw [encodeBytes, List.cons_append, List.cons_append, List.nil_append, decodeBytes_cons, wordOfBytes_bytes,
    decodeWord_encodeWord]

/-- Settles O3: by the leading nibble, in each format. -/
theorem encodeAfterDecode : Obligations.EncodeAfterDecode :=
  fun _ _ _ h => encodeWord_of_decodeWord h

/-- Settles O4: a word that decodes is an encoded word, which matches its row; every row's words decode; and no two
rows agree on the bits they share. -/
theorem instructionIffOneRowMatches : Obligations.InstructionIffOneRowMatches := by
  intro sel op
  refine ⟨⟨?_, ?_⟩, fun r₁ hr₁ r₂ hr₂ h₁ h₂ => row_unique sel op hr₁ hr₂ h₁ h₂⟩
  · rintro ⟨i, hi⟩
    rw [← wellFormedWord_eq_true_iff, ← encodeWord_of_decodeWord hi]
    exact wellFormedWord_encodeWord sel i
  · rintro ⟨r, hr, h⟩
    exact exists_decodeWord_of_row sel op r hr h

/-- Settles O5: group by group, what the decoder rejects. -/
theorem unrecognisedWordClasses : Obligations.UnrecognisedWordClasses := by
  intro sel op
  cases sel <;> exact decodeWord_eq_none_iff _ op

/-- Settles O1: the decoder evaluated on thirteen words. -/
theorem knownWordsDecode : Obligations.KnownWordsDecode := by
  unfold Obligations.KnownWordsDecode
  decide

end Sys2Proof.Machine

/-! PROOFS. What an instruction leaves alone (00_scope.md R17, 10_state.md R33, 42_load_alu.md R115, 60_exceptions.md
R171). Each is shown once of the effect and once of the fatal condition, and `exec_eq_next_iff` puts them together. -/

namespace Sys2Proof.Machine

/-! ### The frames of the remaining state operations -/

theorem unchanged_raise (f : Fatal) (s : State) : Unchanged [.halt] s (raise f s) := by
  intro p hp
  cases p
  case halt => simp at hp
  all_goals simp [Part.Same]

theorem unchanged_popPc (s : State) : Unchanged [.pc, .sp] s s.popPc := by
  intro p hp
  cases p
  case pc | sp => simp at hp
  all_goals simp [Part.Same]

theorem unchanged_pushPc (s : State) : Unchanged [.sp, .stack] s s.pushPc := by
  intro p hp
  cases p
  case sp | stack => simp at hp
  all_goals simp [Part.Same]

theorem unchanged_storeBytes (s : State) (a : Nat) (bs : List Byte) : Unchanged [.mem] s (s.storeBytes a bs) := by
  intro p hp
  cases p
  case mem => simp at hp
  all_goals simp [Part.Same]

theorem unchanged_setRegsFrom0 (s : State) (bs : List Byte) : Unchanged [.v] s (s.setRegsFrom0 bs) := by
  intro p hp
  cases p
  case v => simp at hp
  all_goals simp [Part.Same]

theorem unchanged_setRegFlag (s : State) (x : Nibble) (r : Byte) (f : Bool) : Unchanged [.v] s (s.setRegFlag x r f) :=
  (writesRegAndFlag_setRegFlag s x r f).2

theorem unchanged_drwEffect (x y n : Nibble) (s : State) : Unchanged [.v, .fb] s (drwEffect x y n s) :=
  ((unchanged_setFb s _).mono (by simp)).trans ((unchanged_setReg _ vf _).mono (by simp))

theorem unchanged_call (s : State) (w : Word) : Unchanged [.pc, .sp, .stack] s (s.pushPc.setPc w) :=
  ((unchanged_pushPc s).mono (by simp)).trans ((unchanged_setPc s.pushPc w).mono (by simp))

/-! ### An instruction's effect writes only what its entry names -/

theorem unchanged_instrEffect (i : Instr) (s : State) : Unchanged (instrWrites i) s (instrEffect i s) := by
  cases i
  case cls => exact unchanged_setFb s fbClear
  case ret => exact (unchanged_popPc s).mono (by simp [instrWrites])
  case jp | jpV0Nnn => exact unchanged_setPc s _
  case call => exact (unchanged_call s _).mono (by simp [instrWrites])
  case seVxKk | sneVxKk | seVxVy | sneVxVy => exact unchanged_skipIf s _
  case skpVx | sknpVx => exact (unchanged_skipIf s _).mono (by simp [instrWrites])
  case ldVxKk | addVxKk | ldVxVy | orVxVy | andVxVy | xorVxVy | ldVxDt => exact unchanged_setReg s _ _
  case addVxVy | subVxVy | shrVx | subnVxVy | shlVx => exact unchanged_setRegFlag s _ _ _
  case ldINnn | addIVx | ldFVx => exact unchanged_setI s _
  case rndVxKk x kk =>
    exact ((unchanged_countDraw s).mono (by simp [instrWrites])).trans
      ((unchanged_setReg s.countDraw x _).mono (by simp [instrWrites]))
  case drwVxVyN x y n => exact (unchanged_drwEffect x y n s).mono (by simp [instrWrites])
  case ldVxK x =>
    rw [instrEffect]
    cases s.lowestKey with
    | none => exact (unchanged_setPc s _).mono (by simp [instrWrites])
    | some k => exact (unchanged_setReg s x _).mono (by simp [instrWrites])
  case ldDtVx => exact unchanged_setDt s _
  case ldStVx => exact unchanged_setSt s _
  case ldBVx | ldMemVx => exact (unchanged_storeBytes s _ _).mono (by simp [instrWrites])
  case ldVxMem => exact (unchanged_setRegsFrom0 s _).mono (by simp [instrWrites])

theorem reg_instrEffect (i : Instr) (s : State) {r : Nibble} (h : ¬ InstrWritesReg i r) :
    (instrEffect i s).reg r = s.reg r := by
  cases i
  case ldVxKk | addVxKk | ldVxVy | orVxVy | andVxVy | xorVxVy | ldVxDt => exact (reg_setReg s _ r _).trans (if_neg h)
  case addVxVy | subVxVy | shrVx | subnVxVy | shlVx =>
    obtain ⟨hx, hvf⟩ := not_or.1 h
    rw [instrEffect, reg_setRegFlag, if_neg hvf, if_neg hx]
  case rndVxKk x kk => exact (reg_setReg s.countDraw x r _).trans (if_neg h)
  case drwVxVyN x y n => exact (drwEffect_reg x y n r s).trans (if_neg h)
  case ldVxK x =>
    rw [instrEffect]
    cases s.lowestKey with
    | none => exact State.setPc_reg s _ r
    | some k => exact (reg_setReg s x r _).trans (if_neg h)
  case ldVxMem x =>
    have hr : ¬ r.toNat < x.toNat + 1 := fun hlt => h (Nat.le_of_lt_succ hlt)
    rw [instrEffect, reg_setRegsFrom0, memory_readBytes_length, if_neg hr]
  all_goals exact unchanged_instrEffect _ s .v (by simp [instrWrites]) r

/-! ### An instruction, its effect or its fatal condition -/

/-- An instruction that can raise a fatal condition has the latch among the pieces its entry names. -/
theorem halt_mem_instrWrites {i : Instr} {s : State} {f : Fatal} (h : instrCheck i s = some f) :
    Part.halt ∈ instrWrites i := by
  cases i
  case ret | call | drwVxVyN | skpVx | sknpVx | ldBVx | ldMemVx | ldVxMem => simp [instrWrites]
  all_goals cases h

theorem unchanged_exec {i : Instr} {s t : State} (h : exec i s = .next t) : Unchanged (instrWrites i) s t := by
  obtain ⟨-, rfl⟩ | ⟨f, hf, rfl⟩ := (exec_eq_next_iff i s t).1 h
  · exact unchanged_instrEffect i s
  · exact (unchanged_raise f s).mono (by simpa using halt_mem_instrWrites hf)

theorem reg_exec {i : Instr} {s t : State} {r : Nibble} (h : exec i s = .next t) (hr : ¬ InstrWritesReg i r) :
    t.reg r = s.reg r := by
  obtain ⟨-, rfl⟩ | ⟨f, -, rfl⟩ := (exec_eq_next_iff i s t).1 h
  · exact reg_instrEffect i s hr
  · exact raise_reg s f r

/-- An instruction whose check passes has its effect. -/
theorem exec_of_check_none {i : Instr} {s : State} (h : instrCheck i s = none) :
    exec i s = .next (instrEffect i s) :=
  (exec_eq_next_iff i s _).2 (.inl ⟨h, rfl⟩)

/-- An instruction whose check fails raises its fatal condition and does nothing else (60_exceptions.md R173). -/
theorem exec_of_check_some {i : Instr} {s : State} {f : Fatal} (h : instrCheck i s = some f) :
    exec i s = .next (raise f s) :=
  (exec_eq_next_iff i s _).2 (.inr ⟨f, h, rfl⟩)

/-! ### The latch after an instruction -/

/-- CALL passes its check exactly below capacity (60_exceptions.md R174). -/
theorem callCheck_eq_none_iff (s : State) : callCheck s = none ↔ s.sp.val < 16 := by
  have := s.sp.isLt
  unfold callCheck Config.stackDepth
  split <;> simp <;> omega

/-- RET passes its check exactly above an empty stack (60_exceptions.md R175). -/
theorem retCheck_eq_none_iff (s : State) : retCheck s = none ↔ 0 < s.sp.val := by
  unfold retCheck
  split <;> simp <;> omega

/-- The latch after an instruction: as it was when the check passes, else the cause the check names. -/
theorem halt_exec {i : Instr} {s t : State} (h : exec i s = .next t) :
    t.halt = (instrCheck i s).elim s.halt Fatal.cause := by
  obtain ⟨hc, rfl⟩ | ⟨f, hf, rfl⟩ := (exec_eq_next_iff i s t).1 h
  · rw [hc, instrEffect_halt]; rfl
  · rw [hf]; rfl

theorem rangeCheck_elim_cause (base n : Nat) (h : Halt) :
    (rangeCheck base n).elim h Fatal.cause = if 0 < n ∧ base + n - 1 > 0xFFF then .memRange else h := by
  cases hc : rangeCheck base n with
  | none =>
    have hn := (rangeCheck_eq_none_iff base n).1 hc
    exact (if_neg (by omega)).symm
  | some f =>
    obtain ⟨hn, hr, rfl⟩ := (rangeCheck_eq_some_iff base n f).1 hc
    exact (if_pos ⟨by omega, hr⟩).symm

theorem rangeCheck_succ_elim_cause (base n : Nat) (h : Halt) :
    (rangeCheck base (n + 1)).elim h Fatal.cause = if base + n > 0xFFF then .memRange else h :=
  (rangeCheck_elim_cause base (n + 1) h).trans (by simp)

theorem keyCheck_elim_cause (k : Byte) (h : Halt) :
    (keyCheck k).elim h Fatal.cause = if k.toNat > 15 then .keyIndex else h := by
  unfold keyCheck
  split <;> rfl

theorem retCheck_elim_cause (s : State) (h : Halt) :
    (retCheck s).elim h Fatal.cause = if s.sp.val = 0 then .stackUnderflow else h := by
  unfold retCheck
  split <;> rfl

theorem callCheck_elim_cause (s : State) (h : Halt) :
    (callCheck s).elim h Fatal.cause = if s.sp.val = 16 then .stackOverflow else h := by
  unfold callCheck Config.stackDepth
  split <;> rfl

/-! ### The sound timer and the count of draws are not read -/

theorem popPc_withStDraws (s : State) (b : Byte) (n : Nat) :
    State.popPc { s with st := b, draws := n } = { s.popPc with st := b, draws := n } := by
  simp only [State.popPc]
  split <;> rfl

theorem pushPc_withStDraws (s : State) (b : Byte) (n : Nat) :
    State.pushPc { s with st := b, draws := n } = { s.pushPc with st := b, draws := n } := by
  simp only [State.pushPc]
  split <;> rfl

theorem skipIf_withStDraws (s : State) (c : Bool) (b : Byte) (n : Nat) :
    State.skipIf { s with st := b, draws := n } c = { s.skipIf c with st := b, draws := n } := by
  rw [skipIf_eq_setPc, skipIf_eq_setPc]
  rfl

theorem instrCheck_withStDraws (i : Instr) (s : State) (b : Byte) (n : Nat) :
    instrCheck i { s with st := b, draws := n } = instrCheck i s := by
  cases i <;> rfl

/-- The effect of an instruction other than LD ST,Vx and RND goes past the sound timer and the count of draws: it
depends on neither and writes neither. -/
theorem instrEffect_withStDraws {i : Instr} (hSt : ∀ x, i ≠ .ldStVx x) (hRnd : ∀ x kk, i ≠ .rndVxKk x kk) (s : State)
    (b : Byte) (n : Nat) :
    instrEffect i { s with st := b, draws := n } = { instrEffect i s with st := b, draws := n } := by
  cases i
  case ldStVx x => exact absurd rfl (hSt x)
  case rndVxKk x kk => exact absurd rfl (hRnd x kk)
  case ret => exact popPc_withStDraws s b n
  case call nnn => exact congrArg (State.setPc · (zextAddr nnn)) (pushPc_withStDraws s b n)
  case seVxKk | sneVxKk | seVxVy | sneVxVy | skpVx | sknpVx => exact skipIf_withStDraws s _ b n
  case ldVxK x =>
    have hk : State.lowestKey { s with st := b, draws := n } = s.lowestKey := rfl
    rw [instrEffect, instrEffect, hk]
    cases s.lowestKey <;> rfl
  all_goals rfl

/-- The same of the whole instruction. -/
theorem exec_withStDraws {i : Instr} (hSt : ∀ x, i ≠ .ldStVx x) (hRnd : ∀ x kk, i ≠ .rndVxKk x kk) {s t : State}
    (h : exec i s = .next t) (b : Byte) (n : Nat) :
    exec i { s with st := b, draws := n } = .next { t with st := b, draws := n } := by
  rw [exec_eq_next_iff, instrCheck_withStDraws]
  obtain ⟨hc, rfl⟩ | ⟨f, hf, rfl⟩ := (exec_eq_next_iff i s t).1 h
  · exact .inl ⟨hc, (instrEffect_withStDraws hSt hRnd s b n).symm⟩
  · exact .inr ⟨f, hf, rfl⟩

/-- Only LD ST,Vx writes the sound timer. -/
theorem st_exec {i : Instr} (hSt : ∀ x, i ≠ .ldStVx x) {s t : State} (h : exec i s = .next t) : t.st = s.st := by
  have hnot : Part.st ∉ instrWrites i := by
    cases i
    case ldStVx x => exact absurd rfl (hSt x)
    all_goals simp [instrWrites]
  exact unchanged_exec h .st hnot

/-- Only RND draws a byte. -/
theorem draws_exec {i : Instr} (hRnd : ∀ x kk, i ≠ .rndVxKk x kk) {s t : State} (h : exec i s = .next t) :
    t.draws = s.draws := by
  have hnot : Part.draws ∉ instrWrites i := by
    cases i
    case rndVxKk x kk => exact absurd rfl (hRnd x kk)
    all_goals simp [instrWrites]
  exact unchanged_exec h .draws hnot

theorem exec_withSt {i : Instr} (hSt : ∀ x, i ≠ .ldStVx x) (hRnd : ∀ x kk, i ≠ .rndVxKk x kk) {s t : State}
    (h : exec i s = .next t) (b : Byte) : exec i { s with st := b } = .next { t with st := b } :=
  (exec_withStDraws hSt hRnd h b s.draws).trans (by rw [← draws_exec hRnd h])

theorem exec_withDraws {i : Instr} (hSt : ∀ x, i ≠ .ldStVx x) (hRnd : ∀ x kk, i ≠ .rndVxKk x kk) {s t : State}
    (h : exec i s = .next t) (n : Nat) : exec i { s with draws := n } = .next { t with draws := n } :=
  (exec_withStDraws hSt hRnd h s.st n).trans (by rw [← st_exec hSt h])

/-! ### The obligations -/

/-- Settles O58: the effect writes the listed pieces and registers; a fatal condition writes the latch, which is
listed. -/
theorem writesOnlyWhatTheEntryNames : Obligations.WritesOnlyWhatTheEntryNames :=
  fun _ _ _ h => ⟨unchanged_exec h, fun _ hne => not_imp_comm.1 (reg_exec h) hne⟩

/-- Settles O12: the latch is what the instruction's check says of it, and each check turns on its own condition. -/
theorem onlyNamedInstructionsRaise : Obligations.OnlyNamedInstructionsRaise := by
  intro i s t hrun h
  rw [halt_exec h, show s.halt = .running from hrun]
  cases i
  case ret => exact retCheck_elim_cause s _
  case call => exact callCheck_elim_cause s _
  case drwVxVyN => exact rangeCheck_elim_cause _ _ _
  case ldBVx | ldMemVx | ldVxMem => exact rangeCheck_succ_elim_cause _ _ _
  case skpVx | sknpVx => exact keyCheck_elim_cause _ _
  all_goals rfl

/-- Settles O28: LD ST,Vx is one write; every other instruction but RND goes past the count of draws. -/
theorem onlyRndReadsRandomSource : Obligations.OnlyRndReadsRandomSource := by
  intro i s t n hRnd h
  by_cases hSt : ∃ x, i = .ldStVx x
  · obtain ⟨x, rfl⟩ := hSt
    cases h
    rfl
  · have hne : ∀ x, i ≠ .ldStVx x := not_exists.1 hSt
    exact exec_withDraws hne hRnd h n

/-- Settles O59: LD ST,Vx writes the timer over, RND draws the same byte, and every other instruction goes past the
timer. -/
theorem noInstructionReadsSoundTimer : Obligations.NoInstructionReadsSoundTimer := by
  intro i s t b h
  cases i
  case ldStVx x => cases h; rfl
  case rndVxKk x kk => cases h; rfl
  all_goals exact exec_withSt (by simp) (by simp) h b

end Sys2Proof.Machine

/-! PROOFS. The invariant (10_state.md R30, 46_host_operations.md R155). An instruction runs at the advanced `PC`, which
after a fetch in range lies between 2 and 0x1000: from there every rule keeps the three parts of the invariant. -/

namespace Sys2Proof.Machine

/-! ### The advanced program counter -/

/-- After a fetch in range the advance does not wrap (40_step_cycle.md R82). -/
theorem advance_pc_toNat {s : State} (h : s.pc.toNat ≤ 0xFFE) : s.advance.pc.toNat = s.pc.toNat + 2 := by
  rw [State.advance_pc]
  bv_omega

/-! ### Memory -/

/-- Bytes that pass the range check are written inside the address space (20_memory.md R44). -/
theorem wf_storeBytes_of_rangeCheck {s : State} {a : Nat} {bs : List Byte} (hw : Memory.wf s.mem = true)
    (hlen : bs.length ≠ 0) (hc : rangeCheck a bs.length = none) : Memory.wf (s.storeBytes a bs).mem = true := by
  refine memory_wf_writeBytes s.mem a bs hw ?_
  obtain h0 | hr := (rangeCheck_eq_none_iff a bs.length).1 hc
  · exact absurd h0 hlen
  · rw [Config.memSize]; omega

theorem wf_instrEffect {i : Instr} {s : State} (hw : Memory.wf s.mem = true) (hc : instrCheck i s = none) :
    Memory.wf (instrEffect i s).mem = true := by
  cases i
  case ldBVx x => exact wf_storeBytes_of_rangeCheck hw (by simp [bcdDigits]) hc
  case ldMemVx x => exact wf_storeBytes_of_rangeCheck hw (by simp) (by rw [regsTo_length]; exact hc)
  case ldVxK x => rw [instrEffect]; cases s.lowestKey <;> exact hw
  all_goals simpa [instrEffect, setRegFlag_eq] using hw

/-! ### The program counter -/

theorem skipIf_pc_le {s : State} (hpc : s.pc.toNat ≤ 0x1000) (c : Bool) : (s.skipIf c).pc.toNat ≤ 0x10FE := by
  rw [State.skipIf_pc]
  split <;> bv_omega

/-- Every rule of `PC`: an address, an indexed jump, a skip, a popped entry, a key wait (10_state.md R30). -/
theorem instrEffect_pc_le (i : Instr) {s : State} (hlo : 2 ≤ s.pc.toNat) (hhi : s.pc.toNat ≤ 0x1000)
    (hstack : ∀ j : Fin 16, (s.stack[j.val]).toNat ≤ 0x1000) : (instrEffect i s).pc.toNat ≤ 0x10FE := by
  by_cases hwrites : Part.pc ∈ instrWrites i
  case neg =>
    rw [show (instrEffect i s).pc = s.pc from unchanged_instrEffect i s .pc hwrites]
    omega
  cases i
  case jp nnn | call nnn =>
    have hn := nnn.isLt
    rw [instrEffect, State.setPc_pc, zextAddr_toNat]
    omega
  case jpV0Nnn nnn =>
    have hn := nnn.isLt
    have hb := (s.reg 0).isLt
    rw [instrEffect, State.setPc_pc, zextByte_add_zextAddr_toNat]
    omega
  case seVxKk | sneVxKk | seVxVy | sneVxVy | skpVx | sknpVx => exact skipIf_pc_le hhi _
  case ret =>
    by_cases hsp : 0 < s.sp.val
    · have hentry := hstack ⟨s.sp.val - 1, by omega⟩
      rw [instrEffect, popPc_pc s hsp]
      exact hentry.trans (by decide)
    · rw [instrEffect, State.popPc, dif_neg hsp]
      omega
  case ldVxK x =>
    rw [instrEffect]
    cases s.lowestKey with
    | none => rw [State.setPc_pc]; bv_omega
    | some k => rw [State.setReg_pc]; omega
  all_goals simp [instrWrites] at hwrites

/-! ### The stack -/

/-- CALL pushes the advanced `PC`; no other instruction writes an entry. -/
theorem instrEffect_stack_le {i : Instr} {s : State} (hc : instrCheck i s = none) (hhi : s.pc.toNat ≤ 0x1000)
    (hstack : ∀ j : Fin 16, (s.stack[j.val]).toNat ≤ 0x1000) (j : Fin 16) :
    ((instrEffect i s).stack[j.val]).toNat ≤ 0x1000 := by
  by_cases hwrites : Part.stack ∈ instrWrites i
  case neg =>
    rw [show (instrEffect i s).stack[j.val] = s.stack[j.val] from unchanged_instrEffect i s .stack hwrites j]
    exact hstack j
  cases i
  case call nnn =>
    have hsp : s.sp.val < 16 := (callCheck_eq_none_iff s).1 hc
    simp only [instrEffect, State.setPc_stack]
    rw [pushPc_stack s hsp j.val j.isLt]
    split
    · exact hhi
    · exact hstack j
  all_goals simp [instrWrites] at hwrites

/-! ### A step -/

theorem inv_raise {s : State} (h : s.Inv) (f : Fatal) : (raise f s).Inv := h

theorem inv_advance {s : State} (h : s.Inv) (hpc : s.pc.toNat ≤ 0xFFE) : s.advance.Inv := by
  obtain ⟨hw, -, hstack⟩ := h
  exact ⟨hw, by rw [advance_pc_toNat hpc]; omega, hstack⟩

theorem inv_exec_advance {i : Instr} {s t : State} (h : s.Inv) (hpc : s.pc.toNat ≤ 0xFFE)
    (ht : exec i s.advance = .next t) : t.Inv := by
  have hadv := advance_pc_toNat hpc
  obtain ⟨hw, -, hstack⟩ := inv_advance h hpc
  obtain ⟨hc, rfl⟩ | ⟨f, -, rfl⟩ := (exec_eq_next_iff i s.advance t).1 ht
  · exact ⟨wf_instrEffect hw hc, instrEffect_pc_le i (by omega) (by omega) hstack,
      instrEffect_stack_le hc (by omega) hstack⟩
  · exact inv_raise (inv_advance h hpc) f

theorem inv_step {s t : State} (h : s.Inv) (ht : step s = .next t) : t.Inv := by
  obtain ⟨-, hs, -⟩ | ⟨hpc, i, -, hs, -⟩ | ⟨hpc, -, hs, -⟩ := step_cases s (running_of_step s t ht)
  · cases hs.symm.trans ht
    exact inv_raise h _
  · exact inv_exec_advance h hpc (hs.symm.trans ht)
  · cases hs.symm.trans ht
    exact inv_advance h hpc

/-! ### The host's transactions -/

theorem inv_reset : State.reset.Inv := ⟨memory_wf_reset, by decide, by decide⟩

theorem inv_storeBytes {s : State} (h : s.Inv) {a : Nat} {bs : List Byte} (hlen : a + bs.length ≤ Config.memSize) :
    (s.storeBytes a bs).Inv := by
  obtain ⟨hw, hpc, hstack⟩ := h
  exact ⟨memory_wf_writeBytes s.mem a bs hw hlen, hpc, hstack⟩

theorem inv_hostLoad {s : State} (h : s.Inv) (bytes : List Byte) : (hostLoad bytes s).2.Inv := by
  unfold hostLoad
  split
  · exact h
  · next hle => exact inv_storeBytes h (by simp only [Config.romMax, Config.progBase, Config.memSize] at *; omega)

theorem inv_hostPreload {s : State} (h : s.Inv) (image : Vector Byte 512) : (hostPreload image s).Inv :=
  inv_storeBytes h (by simp [Config.memSize])

theorem inv_hostSetKey {s : State} (h : s.Inv) (k : Nat) (b : Bool) : (hostSetKey k b s).2.Inv := by
  unfold hostSetKey
  split <;> exact h

theorem inv_hostStep {s : State} (h : s.Inv) : (hostStep s).2.Inv := by
  unfold hostStep
  split
  · next ht => exact inv_step h ht
  · exact h
  · exact h

theorem inv_transact {s : State} (h : s.Inv) (t : Transaction) : (transact t s).2.Inv := by
  cases t
  case reset => exact inv_reset
  case load bytes => rw [transact]; split; exacts [inv_hostLoad h bytes, h]
  case preload image => rw [transact]; split; exacts [inv_hostPreload h image, h]
  case step => exact inv_hostStep h
  case tickTimers => rw [transact]; split; exacts [h, h]
  case setKey k b => rw [transact]; split; exacts [inv_hostSetKey h k b, h]
  case fbGet | readDt | readSt => exact h

theorem inv_transactAll (ts : List Transaction) {s : State} (h : s.Inv) : (transactAll ts s).2.Inv := by
  induction ts generalizing s with
  | nil => exact h
  | cons t ts ih => exact ih (inv_transact h t)

/-! ### The obligations -/

/-- Settles O54: nothing is stored, `PC` is 0x200 and every entry is 0. -/
theorem resetMeetsInvariant : Obligations.ResetMeetsInvariant := inv_reset

/-- Settles O55: a fatal fetch and an unrecognised word touch neither memory nor stack, and an instruction runs at an
advanced `PC` of at most 0x1000. -/
theorem stepKeepsInvariant : Obligations.StepKeepsInvariant := fun _ _ h ht => inv_step h ht

/-- Settles O56, by induction on the list of transactions. -/
theorem everyInterleavingKeepsInvariant : Obligations.EveryInterleavingKeepsInvariant :=
  fun ts _ h => inv_transactAll ts h

end Sys2Proof.Machine

/-! PROOFS. The step cycle (40_step_cycle.md R80 to R89) and the state at halt (60_exceptions.md R172, R173). Everything
follows from `step_cases`: a fatal fetch, an instruction at the advanced state, or the advance alone. -/

namespace Sys2Proof.Machine

/-! ### The three kinds of step -/

/-- A step over an instruction is its execute phase at the advanced state (40_step_cycle.md R84). -/
theorem step_of_decodeWord {s : State} {i : Instr} (hrun : s.Running) (hpc : s.pc.toNat ≤ 0xFFE)
    (hi : decodeWord s.shlSel s.fetchWord = some i) : step s = exec i s.advance := by
  obtain ⟨hout, -⟩ | ⟨-, i', hi', hs, -⟩ | ⟨-, hnone, -⟩ := step_cases s hrun
  · exact absurd hpc (not_le_of_gt hout)
  · cases hi.symm.trans hi'
    exact hs
  · cases hi.symm.trans hnone

/-- A step over an unrecognised word is the advance, with its diagnostic (40_step_cycle.md R86). -/
theorem step_of_decodeWord_none {s : State} (hrun : s.Running) (hpc : s.pc.toNat ≤ 0xFFE)
    (hnone : decodeWord s.shlSel s.fetchWord = none) :
    step s = .next s.advance ∧ stepReport s = .diag s.fetchWord s.pc := by
  obtain ⟨hout, -⟩ | ⟨-, i, hi, -⟩ | ⟨-, -, hs, hrep⟩ := step_cases s hrun
  · exact absurd hpc (not_le_of_gt hout)
  · cases hnone.symm.trans hi
  · exact ⟨hs, hrep⟩

/-- A step with the fetch out of range latches FETCH_RANGE alone (60_exceptions.md R177). -/
theorem step_of_fetchRange {s : State} (hrun : s.Running) (hpc : 0xFFE < s.pc.toNat) :
    step s = .next (raise (.fetchRange s.pc.toNat) s) ∧ stepReport s = .fatal (.fetchRange s.pc.toNat) := by
  obtain ⟨-, hs⟩ | ⟨hin, -⟩ | ⟨hin, -⟩ := step_cases s hrun
  · exact hs
  · exact absurd hpc (not_lt_of_ge hin)
  · exact absurd hpc (not_lt_of_ge hin)

/-- Two bytes that decode to an instruction make a word that does. -/
theorem decodeWord_of_decodeBytes {sel : ShlSel} {hi lo : Byte} {i : Instr}
    (h : decodeBytes sel [hi, lo] = .instr i []) : decodeWord sel (wordOfBytes hi lo) = some i := by
  rw [decodeBytes_cons] at h
  cases hd : decodeWord sel (wordOfBytes hi lo) with
  | none => rw [hd] at h; cases h
  | some j => rw [hd] at h; cases h; rfl

theorem unchanged_advance (s : State) : Unchanged [.pc] s s.advance := unchanged_setPc s (s.pc + 2)

/-- `PC` put back where it was before the advance. -/
theorem advance_setPc_self {s : State} {w : Word} (h : w = s.pc) : s.advance.setPc w = s := by
  subst h
  rfl

/-! ### What an instruction of a step does to host state and latch -/

/-- No instruction writes a key (40_step_cycle.md R87). -/
theorem keyDown_exec {i : Instr} {s t : State} (h : exec i s = .next t) (k : Fin 16) : t.keyDown k = s.keyDown k := by
  have hnot : Part.key ∉ instrWrites i := by cases i <;> simp [instrWrites]
  exact unchanged_exec h .key hnot k

/-- Only LD DT,Vx writes the delay timer. -/
theorem dt_exec {i : Instr} (hDt : ∀ x, i ≠ .ldDtVx x) {s t : State} (h : exec i s = .next t) : t.dt = s.dt := by
  have hnot : Part.dt ∉ instrWrites i := by
    cases i
    case ldDtVx x => exact absurd rfl (hDt x)
    all_goals simp [instrWrites]
  exact unchanged_exec h .dt hnot

/-- FETCH_RANGE is the fetch's own: no instruction raises it (60_exceptions.md R177, R182). -/
theorem halt_exec_ne_fetchRange {i : Instr} {s t : State} (hrun : s.Running) (h : exec i s = .next t) :
    t.halt ≠ .fetchRange := by
  rw [onlyNamedInstructionsRaise i s t hrun h]
  cases i
  case ret | call | drwVxVyN | ldBVx | ldMemVx | ldVxMem | skpVx | sknpVx => dsimp only; split <;> simp
  all_goals simp

/-- An instruction that halts a running machine has failed its check, which names the cause. -/
theorem exists_check_of_halt_exec {i : Instr} {s t : State} (h : exec i s = .next t) (hne : t.halt ≠ s.halt) :
    ∃ f, instrCheck i s = some f ∧ t = raise f s := by
  obtain ⟨-, rfl⟩ | hf := (exec_eq_next_iff i s t).1 h
  · exact absurd (instrEffect_halt i s) hne
  · exact hf

/-! ### SET_KEY on a running machine (46_host_operations.md R157, R158) -/

theorem transact_setKey {s : State} (hrun : s.Running) {k : Nat} (hk : k < 16) (b : Bool) :
    transact (.setKey k b) s = (.ok, { s with key := s.key.set k b hk }) := by
  rw [transact, if_pos hrun, hostSetKey, dif_pos hk]

theorem transact_setKey_outOfRange {s : State} (hrun : s.Running) {k : Nat} (hk : 15 < k) (b : Bool) :
    transact (.setKey k b) s = (.fatal (.hostKeyIndex k), raise (.hostKeyIndex k) s) := by
  rw [transact, if_pos hrun, hostSetKey, dif_neg (by omega)]

/-! ### The obligations: one step -/

/-- Settles O6: the step's second case, and an advance that cannot wrap. -/
theorem stepRunsDecodedInstruction : Obligations.StepRunsDecodedInstruction := by
  intro s i hrun hpc hdec
  exact ⟨step_of_decodeWord hrun hpc (decodeWord_of_decodeBytes hdec), advance_pc_toNat hpc⟩

/-- Settles O7: the step's first case. -/
theorem fetchOutOfRangeIsFatal : Obligations.FetchOutOfRangeIsFatal := fun _ hrun hpc => step_of_fetchRange hrun hpc

/-- Settles O8: the step's third case. -/
theorem unrecognisedWordIsNoOp : Obligations.UnrecognisedWordIsNoOp := by
  intro s hrun hpc hno
  obtain ⟨hs, hrep⟩ := step_of_decodeWord_none hrun hpc (Option.eq_none_iff_forall_ne_some.2 hno)
  exact ⟨s.advance, hs, State.advance_pc s, unchanged_advance s, hrep⟩

/-- Settles O9, by induction on the list of transactions: none of them changes a halted state. -/
theorem haltedMachineIsFrozen : Obligations.HaltedMachineIsFrozen := by
  intro s hhalt
  refine ⟨step_halted s hhalt, fun ts hts => ?_⟩
  induction ts with
  | nil => rfl
  | cons t ts ih =>
    obtain ⟨ht, hts⟩ := not_or.1 (mt List.mem_cons.2 hts)
    rw [transactAll, transact_halted s hhalt t (Ne.symm ht)]
    exact ih hts

/-- Settles O10: the cases of a step, the execute phase split by whether its check passes. -/
theorem stepEndsInOneOfThreeWays : Obligations.StepEndsInOneOfThreeWays := by
  intro s hrun
  obtain ⟨-, hs, hrep⟩ | ⟨-, i, hi, hs, hfatal, hok⟩ | ⟨-, -, hs, hrep⟩ := step_cases s hrun
  · exact ⟨_, hs, transact_step s _ hs, .inr (.inr ⟨fatal_cause_ne_running (.fetchRange s.pc.toNat), _, hrep, rfl⟩)⟩
  · cases hc : instrCheck i s.advance with
    | none =>
      have hexec := exec_of_check_none hc
      have ht := hs.trans hexec
      exact ⟨_, ht, transact_step s _ ht, .inl ⟨(instrEffect_halt i s.advance).trans hrun, hok hc, i, hi, hexec⟩⟩
    | some f =>
      have ht := hs.trans (exec_of_check_some hc)
      exact ⟨_, ht, transact_step s _ ht, .inr (.inr ⟨fatal_cause_ne_running f, f, hfatal f hc, rfl⟩)⟩
  · exact ⟨_, hs, transact_step s _ hs, .inr (.inl ⟨hrun, _, hrep, State.advance_pc s, unchanged_advance s⟩)⟩

/-- A step that halts differs from its start in `PC` and the latch alone, `PC` by the advance if there was one
(60_exceptions.md R173). -/
theorem step_halts_precisely {s t : State} (hrun : s.Running) (ht : step s = .next t) (hhalt : ¬ t.Running) :
    Unchanged [.pc, .halt] s t ∧ t.pc = if t.halt = .fetchRange then s.pc else s.pc + 2 := by
  obtain ⟨-, hs, -⟩ | ⟨-, i, -, hs, -⟩ | ⟨-, -, hs, -⟩ := step_cases s hrun
  · cases hs.symm.trans ht
    exact ⟨(unchanged_raise _ s).mono (by simp), rfl⟩
  · have hexec := hs.symm.trans ht
    have hne : t.halt ≠ s.advance.halt := fun h => hhalt (h.trans hrun)
    have hcause := halt_exec_ne_fetchRange (s := s.advance) hrun hexec
    obtain ⟨f, -, rfl⟩ := exists_check_of_halt_exec hexec hne
    exact ⟨((unchanged_advance s).mono (by simp)).trans ((unchanged_raise f s.advance).mono (by simp)),
      (if_neg hcause).symm⟩
  · cases hs.symm.trans ht
    exact absurd hrun hhalt

/-- SET_KEY halts only by its own fatal condition (46_host_operations.md R158). -/
theorem setKey_halts_precisely {s : State} {k : Nat} {b : Bool} (hrun : s.Running)
    (hhalt : ¬ (transact (.setKey k b) s).2.Running) :
    (transact (.setKey k b) s).2 = raise (.hostKeyIndex k) s := by
  by_cases hk : k < 16
  · rw [transact_setKey hrun hk] at hhalt
    exact absurd hrun hhalt
  · rw [transact_setKey_outOfRange hrun (Nat.lt_of_not_le fun hle => hk (Nat.lt_succ_of_le hle))]

/-- Settles O11: a fatal condition is raised before any effect, at the advanced state or at the fetch. -/
theorem fatalConditionsArePrecise : Obligations.FatalConditionsArePrecise := by
  refine ⟨fun s t => step_halts_precisely, fun s k b hrun hhalt => ?_⟩
  rw [setKey_halts_precisely hrun hhalt]
  exact ⟨unchanged_raise _ s, rfl⟩

/-- Settles O57: neither the advance nor a fatal condition touches keys or timers, and an instruction writes only what
its entry names. -/
theorem stepLeavesHostStateAlone : Obligations.StepLeavesHostStateAlone := by
  intro s t ht
  obtain ⟨-, hs, hrep⟩ | ⟨-, i, hi, hs, hfatal, -⟩ | ⟨-, -, hs, -⟩ := step_cases s (running_of_step s t ht)
  · cases hs.symm.trans ht
    exact ⟨raise_keyDown s _, absurd rfl, absurd rfl, fun _ => ⟨_, hrep, rfl⟩⟩
  · have hexec := hs.symm.trans ht
    refine ⟨keyDown_exec (s := s.advance) hexec, fun hne => ?_, fun hne => ?_, fun hne => ?_⟩
    · by_contra hno
      exact hne (dt_exec (s := s.advance) (fun x hx => hno ⟨x, hx ▸ hi⟩) hexec)
    · by_contra hno
      exact hne (st_exec (s := s.advance) (fun x hx => hno ⟨x, hx ▸ hi⟩) hexec)
    · obtain ⟨f, hf, rfl⟩ := exists_check_of_halt_exec hexec hne
      exact ⟨f, hfatal f hf, rfl⟩
  · cases hs.symm.trans ht
    exact ⟨State.advance_keyDown s, absurd rfl, absurd rfl, absurd rfl⟩

/-! ### The obligations: steps that change nothing -/

/-- Settles O60: the jump puts `PC` back to the address the advance left. -/
theorem jumpToSelfIsFinished : Obligations.JumpToSelfIsFinished := by
  intro s nnn hrun hpc hself hdec
  have hback : zextAddr nnn = s.pc := BitVec.eq_of_toNat_eq ((zextAddr_toNat nnn).trans hself.symm)
  refine ⟨hrun, ?_⟩
  calc step s = exec (.jp nnn) s.advance := step_of_decodeWord hrun hpc hdec
    _ = .next (s.advance.setPc (zextAddr nnn)) := rfl
    _ = .next s := by rw [advance_setPc_self hback]

/-- Settles O46: with no key pressed the wait takes back the advance. -/
theorem keyWaitWithoutKeyIsFixedPoint : Obligations.KeyWaitWithoutKeyIsFixedPoint := by
  intro s x hrun hpc hdec hup
  have hscan : s.advance.lowestKey = none := (lowestKey_eq_none_iff s.advance).2 hup
  have hback : s.advance.pc - 2 = s.pc := BitVec.add_sub_cancel s.pc 2
  calc step s = exec (.ldVxK x) s.advance := step_of_decodeWord hrun hpc hdec
    _ = .next (s.advance.setPc (s.advance.pc - 2)) := exec_ldVxK_of_lowestKey_eq_none x hscan
    _ = .next s := by rw [advance_setPc_self hback]

end Sys2Proof.Machine

/-! PROOFS. The call stack (41_control_flow.md R91, R93, 60_exceptions.md R174, R175) and the key skips
(45_keys_timers.md R140 to R142): instructions whose check turns on `SP` or on a register. -/

namespace Sys2Proof.Machine

/-! ### CALL, then RET -/

/-- What CALL leaves in each entry: the advanced `PC` in the one at `SP`. -/
theorem call_stack {s : State} (h : s.sp.val < 16) (w : Word) {j : Nat} (hj : j < 16) :
    (s.pushPc.setPc w).stack[j] = if j = s.sp.val then s.pc else s.stack[j] :=
  pushPc_stack s h j hj

theorem exec_call {s : State} (h : s.sp.val < 16) (nnn : Addr) :
    exec (.call nnn) s = .next (s.pushPc.setPc (zextAddr nnn)) :=
  exec_of_check_none ((callCheck_eq_none_iff s).2 h)

theorem exec_ret {s : State} (h : 0 < s.sp.val) : exec .ret s = .next s.popPc :=
  exec_of_check_none ((retCheck_eq_none_iff s).2 h)

/-- A pop after a call takes the pushed `PC` back. -/
theorem popPc_call_pc {s : State} (h : s.sp.val < 16) (w : Word) : (s.pushPc.setPc w).popPc.pc = s.pc := by
  have hsp : (s.pushPc.setPc w).sp.val = s.sp.val + 1 := pushPc_sp s h
  rw [popPc_pc _ (by omega), call_stack h, if_pos (by omega)]

theorem popPc_call_sp {s : State} (h : s.sp.val < 16) (w : Word) : (s.pushPc.setPc w).popPc.sp = s.sp := by
  have hsp : (s.pushPc.setPc w).sp.val = s.sp.val + 1 := pushPc_sp s h
  exact Fin.ext (by rw [popPc_sp, hsp, Nat.add_sub_cancel])

theorem unchanged_popPc_call {s : State} (h : s.sp.val < 16) (w : Word) :
    Unchanged [.stack] s (s.pushPc.setPc w).popPc := by
  have hframe : Unchanged [.pc, .sp, .stack] s (s.pushPc.setPc w).popPc :=
    (unchanged_call s w).trans ((unchanged_popPc _).mono (by simp))
  intro p hp
  cases p
  case pc => exact popPc_call_pc h w
  case sp => exact popPc_call_sp h w
  case stack => simp at hp
  all_goals exact hframe _ (by simp)

/-! ### The key a register selects -/

theorem keyOf_eq {b : Byte} {k : Fin 16} (h : b.toNat = k.val) : keyOf b = k := by
  rw [keyOf, h, Fin.ofNat_val_eq_self]

theorem keyCheck_eq_none {b : Byte} {k : Fin 16} (h : b.toNat = k.val) : keyCheck b = none :=
  (keyCheck_eq_none_iff b).2 (by omega)

/-! ### The obligations -/

/-- Settles O13: above an empty stack RET is the pop. -/
theorem retPops : Obligations.RetPops := by
  obtain ⟨-, hRet⟩ := encoded_FFFF
  exact ⟨hRet, fun s h => ⟨_, exec_ret h, popPc_sp s, popPc_pc s h, unchanged_popPc s⟩⟩

/-- Settles O14: below capacity CALL is the push and the jump. -/
theorem callPushes : Obligations.CallPushes := by
  obtain ⟨-, hCall, -⟩ := encoded_F000
  exact ⟨hCall, fun s nnn h =>
    ⟨_, exec_call h nnn, fun j => call_stack h _ j.isLt, pushPc_sp s h, zextAddr_toNat nnn, unchanged_call s _⟩⟩

/-- Settles O15: the checks of CALL and RET fail. -/
theorem stackFaultsChangeNothing : Obligations.StackFaultsChangeNothing :=
  ⟨fun s _ h => exec_of_check_some (f := .stackOverflow) (if_pos (show s.sp.val = Config.stackDepth from h)),
    fun _ h => exec_of_check_some (f := .stackUnderflow) (if_pos h)⟩

/-- Settles O16: the entry CALL pushes is the one RET pops; the entries below it are not written. -/
theorem callThenRetRestores : Obligations.CallThenRetRestores := by
  intro s nnn h
  have hpos : 0 < (s.pushPc.setPc (zextAddr nnn)).sp.val := by
    rw [State.setPc_sp, pushPc_sp s h]
    exact Nat.succ_pos _
  refine ⟨_, _, exec_call h nnn, exec_ret hpos, popPc_call_pc h _, popPc_call_sp h _, unchanged_popPc_call h _, ?_⟩
  intro j hj
  rw [State.popPc_stack, call_stack h _ j.isLt, if_neg (Nat.ne_of_lt hj)]

/-- Settles O42: the key check passes, and the skip is on the level of the key. -/
theorem keySkips : Obligations.KeySkips := by
  obtain ⟨hSkp, hSknp, -⟩ := encoded_F0FF
  refine ⟨hSkp, hSknp, fun s x k hk => ⟨?_, ?_⟩⟩
  · refine ⟨_, exec_of_check_none (keyCheck_eq_none hk), ?_, unchanged_skipIf s _⟩
    rw [instrEffect, State.skipIf_pc, keyOf_eq hk]
  · refine ⟨_, exec_of_check_none (keyCheck_eq_none hk), ?_, unchanged_skipIf s _⟩
    rw [instrEffect, State.skipIf_pc, keyOf_eq hk]
    cases s.keyDown k <;> rfl

/-- Settles O43: the key check fails. -/
theorem keyIndexOutOfRangeIsFatal : Obligations.KeyIndexOutOfRangeIsFatal := by
  intro s x h
  have hc : keyCheck (s.reg x) = some (.keyIndex (s.reg x)) := (keyCheck_eq_some_iff _ _).2 ⟨h, rfl⟩
  exact ⟨exec_of_check_some (i := .skpVx x) hc, exec_of_check_some (i := .sknpVx x) hc⟩

end Sys2Proof.Machine

/-! PROOFS. The index register and the loads and stores (43_index_memory.md R121 to R125, 20_memory.md R44, R57). A
store is read back byte by byte, a load register by register; what is left is the range check. -/

namespace Sys2Proof.Machine

/-! ### Bytes stored and bytes read -/

theorem readByte_storeBytes_at (s : State) (a : Nat) (bs : List Byte) {j : Nat} (hj : j < bs.length) :
    (s.storeBytes a bs).readByte (a + j) = bs.getD j 0 := by
  rw [readByte_storeBytes, if_pos ⟨by omega, by omega⟩, Nat.add_sub_cancel_left]

theorem bytesKept_storeBytes (s : State) (a : Nat) (bs : List Byte) :
    BytesKept a bs.length s (s.storeBytes a bs) := by
  intro b hb
  rw [readByte_storeBytes, if_neg (by omega)]

theorem readBytes_getD (m : Memory) (a : Nat) {n j : Nat} (hj : j < n) :
    (Memory.readBytes m a n).getD j 0 = Memory.read m (a + j) := by
  have hlen : j < (Memory.readBytes m a n).length := by rwa [memory_readBytes_length]
  rw [List.getD_eq_getElem _ _ hlen, memory_readBytes_getElem]

/-- The digits are those of the byte's number (43_index_memory.md R123). -/
theorem bcdDigits_getD (a : Byte) :
    ((bcdDigits a).getD 0 0).toNat = a.toNat / 100 ∧ ((bcdDigits a).getD 1 0).toNat = a.toNat / 10 % 10 ∧
      ((bcdDigits a).getD 2 0).toNat = a.toNat % 10 := by
  have ha := a.isLt
  refine ⟨?_, ?_, ?_⟩ <;> simp only [bcdDigits, List.getD_cons_zero, List.getD_cons_succ, BitVec.toNat_ofNat] <;> omega

/-! ### The range check of `n + 1` bytes from `I` -/

theorem rangeCheck_succ_eq_none {base n : Nat} (h : base + n ≤ 0xFFF) : rangeCheck base (n + 1) = none :=
  (rangeCheck_eq_none_iff base (n + 1)).2 (.inr h)

theorem rangeCheck_succ_eq_some {base n : Nat} (h : base + n > 0xFFF) :
    rangeCheck base (n + 1) = some (.memRange (base + n)) :=
  (rangeCheck_eq_some_iff base (n + 1) _).2 ⟨by omega, h, rfl⟩

/-- An instruction that leaves the machine running has passed its check and had its effect. -/
theorem effect_of_running {i : Instr} {s t : State} (h : exec i s = .next t) (ht : t.Running) :
    instrCheck i s = none ∧ t = instrEffect i s := by
  obtain heff | ⟨f, -, rfl⟩ := (exec_eq_next_iff i s t).1 h
  · exact heff
  · exact absurd ht (fatal_cause_ne_running f)

/-! ### The obligations: the index register -/

/-- Settles O30: a 16-bit sum with the widened register. -/
theorem addIndexWraps : Obligations.AddIndexWraps := by
  obtain ⟨-, -, -, -, -, -, hAddI, -⟩ := encoded_F0FF
  refine ⟨hAddI, fun s x => ⟨_, rfl, ?_, unchanged_setI s _⟩⟩
  rw [State.setI_i, BitVec.toNat_add, zextByte_toNat]

/-- The glyph address does not wrap at 16 bits: the font's base is at most 432 (43_index_memory.md R122). -/
theorem glyphAddress_toNat (d : Byte) : (glyphAddress d).toNat = Config.fontBase.val + 5 * d.toNat := by
  have hbase := Config.fontBase.isLt
  have hd := d.isLt
  rw [glyphAddress, Config.glyphSize, BitVec.toNat_ofNat]
  omega

/-- Settles O31: the glyph address of the whole register. -/
theorem glyphAddressSetsI : Obligations.GlyphAddressSetsI := by
  obtain ⟨-, -, -, -, -, -, -, hLdF, -⟩ := encoded_F0FF
  have hbase := Config.fontBase.isLt
  exact ⟨hLdF, by omega, fun s x => ⟨_, rfl, glyphAddress_toNat (s.reg x), unchanged_setI s _⟩⟩

/-! ### The obligations: stores and loads -/

/-- Settles O32: the three digits are stored at ascending addresses. -/
theorem bcdStoresDigits : Obligations.BcdStoresDigits := by
  obtain ⟨-, -, -, -, -, -, -, -, hLdB, -⟩ := encoded_F0FF
  refine ⟨hLdB, fun s x h => ?_⟩
  obtain ⟨h0, h1, h2⟩ := bcdDigits_getD (s.reg x)
  have hread := fun {j : Nat} => readByte_storeBytes_at s s.base (bcdDigits (s.reg x)) (j := j)
  refine ⟨_, exec_of_check_none (rangeCheck_succ_eq_none h), ?_, ?_, ?_,
    bytesKept_storeBytes s s.base (bcdDigits (s.reg x)), unchanged_storeBytes s s.base _⟩
  · exact (congrArg BitVec.toNat (hread (j := 0) (by simp [bcdDigits]))).trans h0
  · exact (congrArg BitVec.toNat (hread (j := 1) (by simp [bcdDigits]))).trans h1
  · exact (congrArg BitVec.toNat (hread (j := 2) (by simp [bcdDigits]))).trans h2

/-- Settles O33: the `j`-th byte stored is `V[j]`. -/
theorem registersStored : Obligations.RegistersStored := by
  obtain ⟨-, -, -, -, -, -, -, -, -, hLdMem, -⟩ := encoded_F0FF
  refine ⟨hLdMem, fun s x h => ⟨_, exec_of_check_none (rangeCheck_succ_eq_none h), fun j hj => ?_, ?_,
    unchanged_storeBytes s s.base _⟩⟩
  · have hlen : j.toNat < (s.regsTo x).length := by rw [regsTo_length]; omega
    exact (readByte_storeBytes_at s s.base _ hlen).trans (regsTo_getD s x j hj)
  · have hkept := bytesKept_storeBytes s s.base (s.regsTo x)
    rwa [regsTo_length] at hkept

/-- Settles O34: `V[j]` becomes the `j`-th byte read. -/
theorem registersLoaded : Obligations.RegistersLoaded := by
  obtain ⟨-, -, -, -, -, -, -, -, -, -, hLdVxMem⟩ := encoded_F0FF
  refine ⟨hLdVxMem, fun s x h => ⟨_, exec_of_check_none (rangeCheck_succ_eq_none h), fun j => ?_,
    unchanged_setRegsFrom0 s _⟩⟩
  rw [instrEffect, reg_setRegsFrom0, memory_readBytes_length]
  by_cases hj : j.toNat ≤ x.toNat
  · rw [if_pos (by omega), if_pos hj, readBytes_getD s.mem s.base (by omega)]
    rfl
  · rw [if_neg (by omega), if_neg hj]

/-- A store that leaves the machine running was in range. -/
theorem range_of_ldMemVx_running {s t : State} {x : Nibble} (h : exec (.ldMemVx x) s = .next t) (ht : t.Running) :
    s.i.toNat + x.toNat ≤ 0xFFF := by
  obtain ⟨hc, -⟩ := effect_of_running h ht
  obtain h0 | hr := (rangeCheck_eq_none_iff s.base (x.toNat + 1)).1 hc
  · omega
  · exact hr

/-- Settles O35: the load reads at `I` what the store left there. -/
theorem storeThenLoadRestoresRegisters : Obligations.StoreThenLoadRestoresRegisters := by
  intro s t u x _ ht hstore hmem hi
  have hrange := range_of_ldMemVx_running hstore ht
  obtain ⟨-, hstored⟩ := registersStored
  obtain ⟨-, hloaded⟩ := registersLoaded
  obtain ⟨t', ht', hbytes, -, hframe⟩ := hstored s x hrange
  cases hstore.symm.trans ht'
  have hui : u.i = s.i := hi.trans (hframe .i (by simp))
  obtain ⟨w, hw, hregs, -⟩ := hloaded u x (by rwa [hui])
  refine ⟨w, hw, fun j hj => ?_⟩
  rw [hregs j, if_pos hj, hmem, hui, hbytes j hj]

/-- Settles O36: the range check of each access fails. -/
theorem outOfRangeAccessChangesNothing : Obligations.OutOfRangeAccessChangesNothing := by
  intro s x y n
  refine ⟨fun hn h => ?_, fun h => ?_, fun h => ?_, fun h => ?_⟩
  · exact exec_of_check_some (i := .drwVxVyN x y n)
      ((rangeCheck_eq_some_iff s.base n.toNat _).2 ⟨Nat.ne_of_gt hn, h, rfl⟩)
  · exact exec_of_check_some (i := .ldBVx x) (rangeCheck_succ_eq_some h)
  · exact exec_of_check_some (i := .ldMemVx x) (rangeCheck_succ_eq_some h)
  · exact exec_of_check_some (i := .ldVxMem x) (rangeCheck_succ_eq_some h)

/-- Settles O37: the two bytes the next fetch reads are the first two the store writes. -/
theorem storeIsSeenByNextFetch : Obligations.StoreIsSeenByNextFetch := by
  intro s x hrun hpc hx hrange hi hdec
  have hadv : s.advance.pc.toNat = s.pc.toNat + 2 := advance_pc_toNat (by omega)
  obtain ⟨-, hstored⟩ := registersStored
  obtain ⟨t, ht, hbytes, -, hframe⟩ := hstored s.advance x hrange
  have htpc : t.pc.toNat = s.i.toNat := by rw [show t.pc = s.advance.pc from hframe .pc (by simp), hadv, hi]
  have hstep : step s = .next t := (step_of_decodeWord hrun (by omega) hdec).trans ht
  refine ⟨t, hstep, (show t.halt = s.halt from hframe .halt (by simp)).trans hrun, by omega, ?_⟩
  have h0 : t.readByte s.i.toNat = s.reg 0 := hbytes 0 (Nat.zero_le _)
  have h1 : t.readByte (s.i.toNat + 1) = s.reg 1 := hbytes 1 hx
  rw [State.fetchWord, State.readWord, htpc, h0, h1]

end Sys2Proof.Machine

/-! PROOFS. DRW (44_display.md R134 to R138). The sprite loop is settled pixel by pixel in `drawRows_spec`; here its
wrapped coordinates become the remainders of the registers' sums, and its bytes those read from `I`. -/

namespace Sys2Proof.Machine

/-! ### Wrapped coordinates -/

theorem wrapX_mod_add_eq_iff (a c : Nat) (px : Fin 64) : wrapX (a % 64 + c) = px ↔ (a + c) % 64 = px.val := by
  rw [Fin.ext_iff, wrapX, Fin.val_ofNat, Nat.mod_add_mod]

theorem wrapY_mod_add_eq_iff (a r : Nat) (py : Fin 32) : wrapY (a % 32 + r) = py ↔ (a + r) % 32 = py.val := by
  rw [Fin.ext_iff, wrapY, Fin.val_ofNat, Nat.mod_add_mod]

/-- Bits counted from the left, as bits counted from the right (44_display.md R136, 10_state.md R35). -/
theorem getMsbD_of_lt {w c : Nat} (hc : c < w) (b : BitVec w) : b.getMsbD c = b.getLsbD (w - 1 - c) := by
  rw [BitVec.getMsbD, decide_eq_true hc, Bool.true_and]

/-! ### The pixels under a sprite -/

/-- A 1 bit of the `n` sprite bytes at `I` falls on the pixel, when the sprite is drawn at `V[x]`, `V[y]`. -/
def State.SpriteCovers (s : State) (x y n : Nibble) (px : Fin 64) (py : Fin 32) : Prop :=
  ∃ r < n.toNat, ∃ c < 8, ((s.reg x).toNat + c) % 64 = px.val ∧ ((s.reg y).toNat + r) % 32 = py.val ∧
    (s.readByte (s.i.toNat + r)).getLsbD (7 - c) = true

/-- The sprite DRW draws, byte by byte. -/
theorem sprite_getMsbD (s : State) {n r c : Nat} (hr : r < n) (hc : c < 8) :
    ((Memory.readBytes s.mem s.base n).getD r 0).getMsbD c = (s.readByte (s.i.toNat + r)).getLsbD (7 - c) := by
  rw [readBytes_getD s.mem s.base hr, getMsbD_of_lt hc]
  rfl

/-- After DRW a pixel has flipped exactly when the sprite covers it (44_display.md R134, R135). -/
theorem fbGet_drwEffect (x y n : Nibble) (s : State) (px : Fin 64) (py : Fin 32) :
    fbGet (drwEffect x y n s).fb px py = true ↔ Xor (fbGet s.fb px py = true) (s.SpriteCovers x y n px py) := by
  have hn := n.isLt
  obtain ⟨-, hpixels⟩ := drawRows_spec ((s.reg x).toNat % 64) ((s.reg y).toNat % 32)
    (Memory.readBytes s.mem s.base n.toNat) (by rw [memory_readBytes_length]; omega) (false, s.fb)
  refine (hpixels px py).trans (iff_of_eq (congrArg (Xor _) (propext ?_)))
  simp only [memory_readBytes_length, wrapX_mod_add_eq_iff, wrapY_mod_add_eq_iff]
  constructor
  · rintro ⟨r, hr, hy, c, hc, hx, hbit⟩
    exact ⟨r, hr, c, hc, hx, hy, (sprite_getMsbD s hr hc).symm.trans hbit⟩
  · rintro ⟨r, hr, c, hc, hx, hy, hbit⟩
    exact ⟨r, hr, hy, c, hc, hx, (sprite_getMsbD s hr hc).trans hbit⟩

/-- The collision DRW reports: some pixel under the sprite was on before (44_display.md R137). -/
theorem drwCollision_iff (x y n : Nibble) (s : State) :
    (drawSprite (s.reg x) (s.reg y) (Memory.readBytes s.mem s.base n.toNat) s.fb).1 = true ↔
      ∃ px py, fbGet s.fb px py = true ∧ s.SpriteCovers x y n px py := by
  have hn := n.isLt
  obtain ⟨hcollision, -⟩ := drawRows_spec ((s.reg x).toNat % 64) ((s.reg y).toNat % 32)
    (Memory.readBytes s.mem s.base n.toNat) (by rw [memory_readBytes_length]; omega) (false, s.fb)
  refine hcollision.trans ?_
  simp only [memory_readBytes_length, Bool.false_eq_true, false_or]
  constructor
  · rintro ⟨r, hr, c, hc, hbit, hon⟩
    exact ⟨_, _, hon, r, hr, c, hc, (wrapX_mod_add_eq_iff _ _ _).1 rfl, (wrapY_mod_add_eq_iff _ _ _).1 rfl,
      (sprite_getMsbD s hr hc).symm.trans hbit⟩
  · rintro ⟨px, py, hon, r, hr, c, hc, hx, hy, hbit⟩
    refine ⟨r, hr, c, hc, (sprite_getMsbD s hr hc).trans hbit, ?_⟩
    rwa [(wrapX_mod_add_eq_iff _ _ px).2 hx, (wrapY_mod_add_eq_iff _ _ py).2 hy]

theorem flagByte_eq_one_iff (f : Bool) : flagByte f = 1 ↔ f = true := by cases f <;> decide

theorem flagByte_eq_zero_or_one (f : Bool) : flagByte f = 0 ∨ flagByte f = 1 := by cases f <;> decide

theorem regsKept_drwEffect (x y n : Nibble) (s : State) : RegsKept [0xF] s (drwEffect x y n s) := by
  intro r hr
  have hvf : r ≠ vf := mt List.mem_singleton.2 hr
  rw [drwEffect_reg, if_neg hvf]

/-! ### A sprite drawn twice -/

/-- DRW leaves what the sprite's place and bytes are read from, if neither coordinate is VF. -/
theorem spriteCovers_drwEffect {x y : Nibble} (hx : x ≠ 0xF) (hy : y ≠ 0xF) (n : Nibble) (s : State) (px : Fin 64)
    (py : Fin 32) : (drwEffect x y n s).SpriteCovers x y n px py ↔ s.SpriteCovers x y n px py := by
  have hkept := regsKept_drwEffect x y n s
  rw [State.SpriteCovers, hkept x (by simpa using hx), hkept y (by simpa using hy)]
  rfl

/-- Two flips of the same pixels are none. -/
theorem fbGet_drwEffect_twice {x y : Nibble} (hx : x ≠ 0xF) (hy : y ≠ 0xF) (n : Nibble) (s : State) (px : Fin 64)
    (py : Fin 32) : fbGet (drwEffect x y n (drwEffect x y n s)).fb px py = fbGet s.fb px py := by
  rw [Bool.eq_iff_iff, fbGet_drwEffect, fbGet_drwEffect, spriteCovers_drwEffect hx hy]
  simp only [Xor]
  tauto

/-! ### The obligations -/

/-- Settles O40: pixels and collision of the sprite loop, the flag written last. -/
theorem drawXorsSprite : Obligations.DrawXorsSprite := by
  obtain ⟨-, -, -, -, -, -, -, -, -, hDrw⟩ := encoded_F000
  refine ⟨hDrw, fun s x y n h => ?_⟩
  have hc : instrCheck (.drwVxVyN x y n) s = none := (rangeCheck_eq_none_iff s.base n.toNat).2 h
  refine ⟨_, exec_of_check_none hc, fbGet_drwEffect x y n s, ?_, ?_, regsKept_drwEffect x y n s,
    unchanged_drwEffect x y n s⟩
  · rw [instrEffect, drwEffect_reg_vf]
    exact flagByte_eq_zero_or_one _
  · rw [instrEffect, drwEffect_reg_vf, flagByte_eq_one_iff]
    exact drwCollision_iff x y n s

/-- Settles O41: the first draw completes, so the second passes the same check and flips the same pixels back. -/
theorem drawTwiceRestoresPixels : Obligations.DrawTwiceRestoresPixels := by
  intro s t u x y n _ ht hx hy hst htu px py
  obtain ⟨hc, rfl⟩ := effect_of_running hst ht
  cases (exec_of_check_none (i := .drwVxVyN x y n) (s := drwEffect x y n s) hc).symm.trans htu
  exact fbGet_drwEffect_twice hx hy n s px py

end Sys2Proof.Machine

/-! PROOFS. The host's transactions (46_host_operations.md R150 to R161): on a running machine each is one write of
memory, timers or keys, or none. -/

namespace Sys2Proof.Machine

/-! ### Memory images -/

/-- LOAD on a running machine (46_host_operations.md R151). -/
theorem transact_load {s : State} (hrun : s.Running) {bytes : List Byte} (hlen : bytes.length ≤ 3584) :
    transact (.load bytes) s = (.ok, s.storeBytes 0x200 bytes) := by
  rw [transact, if_pos hrun, hostLoad, if_neg (show ¬ bytes.length > Config.romMax from Nat.not_lt.2 hlen)]
  rfl

/-- LOAD of an image that is too large (46_host_operations.md R152). -/
theorem transact_load_tooLarge {s : State} (hrun : s.Running) {bytes : List Byte} (hlen : 3584 < bytes.length) :
    transact (.load bytes) s = (.loadTooLarge, s) := by
  rw [transact, if_pos hrun, hostLoad, if_pos (show bytes.length > Config.romMax from hlen)]

theorem transact_preload {s : State} (hrun : s.Running) (image : Vector Byte 512) :
    (transact (.preload image) s).2 = s.storeBytes 0 image.toList := by
  rw [transact, if_pos hrun, hostPreload]

theorem readByte_storeBytes_getElem (s : State) (a : Nat) (bs : List Byte) {j : Nat} (hj : j < bs.length) :
    (s.storeBytes a bs).readByte (a + j) = bs[j] := by
  rw [readByte_storeBytes_at s a bs hj, List.getD_eq_getElem _ _ hj]

/-! ### Timers -/

theorem tick_toNat (t : Byte) : (tick t).toNat = t.toNat - 1 := by
  unfold tick
  split
  · next h => rw [h]; rfl
  · next h => bv_omega

theorem transact_tickTimers {s : State} (hrun : s.Running) : (transact .tickTimers s).2 = hostTick s := by
  rw [transact, if_pos hrun]

theorem unchanged_hostTick (s : State) : Unchanged [.dt, .st] s (hostTick s) := by
  intro p hp
  cases p
  case dt | st => simp at hp
  case mem | v | stack | key => exact fun _ => rfl
  case fb => exact fun _ _ => rfl
  all_goals rfl

/-- Each tick takes one from a timer until it is 0, so `n` ticks take `n` (46_host_operations.md R156). -/
theorem transactAll_ticks (n : Nat) {s : State} (hrun : s.Running) :
    (transactAll (List.replicate n .tickTimers) s).2.dt.toNat = s.dt.toNat - n ∧
      (transactAll (List.replicate n .tickTimers) s).2.st.toNat = s.st.toNat - n := by
  induction n generalizing s with
  | zero => exact ⟨rfl, rfl⟩
  | succ n ih =>
    rw [List.replicate_succ, transactAll, transact_tickTimers hrun]
    obtain ⟨hdt, hst⟩ := ih (s := hostTick s) hrun
    refine ⟨hdt.trans ?_, hst.trans ?_⟩
    · rw [hostTick, tick_toNat, Nat.sub_sub, Nat.add_comm]
    · rw [hostTick, tick_toNat, Nat.sub_sub, Nat.add_comm]

theorem byte_eq_zero_iff_of_toNat {b : Byte} {m n : Nat} (h : b.toNat = m - n) : b = 0 ↔ m ≤ n := by
  rw [← BitVec.toNat_inj, h]
  exact Nat.sub_eq_zero_iff_le

/-! ### Keys -/

theorem unchanged_withKey (s : State) (keys : Vector Bool 16) : Unchanged [.key] s { s with key := keys } := by
  intro p hp
  cases p
  case key => simp at hp
  case mem | v | stack => exact fun _ => rfl
  case fb => exact fun _ _ => rfl
  all_goals rfl

theorem keyDown_withKey_set (s : State) {k : Nat} (hk : k < 16) (b : Bool) (j : Fin 16) :
    State.keyDown { s with key := s.key.set k b hk } j = if j.val = k then b else s.keyDown j := by
  simp only [State.keyDown, Vector.getElem_set, eq_comm]

/-! ### Reset -/

/-- Whatever the model's own two fields hold, every piece of the spec's state has its reset value
(70_reset_and_hazards.md R190). -/
theorem reset_pieces (sel : ShlSel) (n : Nat) {t : State} (ht : t = { State.reset with shlSel := sel, draws := n }) :
    (∀ a, t.readByte a = 0) ∧ (∀ x, t.reg x = 0) ∧ t.i = 0 ∧ t.pc = 0x200 ∧
      (∀ j : Fin 16, t.stack[j.val] = 0) ∧ t.sp = 0 ∧ t.dt = 0 ∧ t.st = 0 ∧ (∀ k, t.keyDown k = false) ∧
      (∀ x y, fbGet t.fb x y = false) ∧ t.Running := by
  subst ht
  refine ⟨fun _ => rfl, fun x => ?_, rfl, rfl, fun j => ?_, rfl, rfl, rfl, fun k => ?_, fbGet_fbClear, rfl⟩
  · exact Vector.getElem_replicate _
  · exact Vector.getElem_replicate _
  · exact Vector.getElem_replicate _

/-! ### The obligations -/

/-- Settles O47: RESET keeps only the model's own two fields. -/
theorem resetZeroesEverything : Obligations.ResetZeroesEverything := by
  rintro s t (ht | ht)
  · exact reset_pieces s.shlSel s.draws ht
  · exact reset_pieces .eight 0 ht

/-- Settles O48: up to 3584 bytes LOAD is a store at 0x200, above that it is nothing. -/
theorem loadCopiesOrRejects : Obligations.LoadCopiesOrRejects := by
  intro s bytes hrun
  refine ⟨fun hlen => ?_, transact_load_tooLarge hrun⟩
  rw [transact_load hrun hlen]
  exact ⟨rfl, fun j hj => readByte_storeBytes_getElem s 0x200 bytes hj, bytesKept_storeBytes s 0x200 bytes,
    unchanged_storeBytes s 0x200 bytes⟩

/-- Settles O49: PRELOAD is a store at 0x000. -/
theorem preloadCopies : Obligations.PreloadCopies := by
  intro s image hrun
  have hlen : image.toList.length = 512 := Vector.length_toList
  have hkept := bytesKept_storeBytes s 0 image.toList
  rw [transact_preload hrun]
  rw [hlen] at hkept
  refine ⟨fun j hj => ?_, hkept, unchanged_storeBytes s 0 _⟩
  have hread := readByte_storeBytes_getElem s 0 image.toList (j := j) (by rwa [hlen])
  rwa [Nat.zero_add, Vector.getElem_toList] at hread

/-- Settles O50: each timer is ticked on its own. -/
theorem tickLowersTimers : Obligations.TickLowersTimers := by
  intro s hrun
  rw [transact_tickTimers hrun]
  refine ⟨(tick_toNat s.dt).trans ?_, (tick_toNat s.st).trans ?_, unchanged_hostTick s⟩
  · split <;> omega
  · split <;> omega

/-- Settles O51: `n` ticks take `n` from a timer, down to 0. -/
theorem timerRunsDown : Obligations.TimerRunsDown := by
  intro s n hrun
  obtain ⟨hdt, hst⟩ := transactAll_ticks n hrun
  exact ⟨byte_eq_zero_iff_of_toNat hdt, byte_eq_zero_iff_of_toNat hst⟩

/-- Settles O52: up to 15 SET_KEY is one write of a key, above that its fatal condition. -/
theorem setKeySetsOneLevel : Obligations.SetKeySetsOneLevel := by
  intro s index pressed hrun
  refine ⟨fun hle => ?_, fun hgt => transact_setKey_outOfRange hrun hgt pressed⟩
  have hk : index < 16 := by omega
  rw [transact_setKey hrun hk]
  exact ⟨rfl, keyDown_withKey_set s hk pressed, unchanged_withKey s _⟩

/-- Settles O53: the reads take no branch on the latch; column `x` is bit `63 - x` of its row. -/
theorem hostReadsReturnState : Obligations.HostReadsReturnState := by
  intro s x y
  have hbit : fbGet s.fb x y = s.fb[y.val].getLsbD (63 - x.val) := getMsbD_of_lt x.isLt _
  exact ⟨by rw [transact, hbit], rfl, rfl⟩

end Sys2Proof.Machine
